-- ==== Sys2Proof/Word.lean ====
section
/-! DEFINITION. The machine word: `W = A = 64` (spec/00_scope.md R6, 10_state.md R22 and R24). -/

namespace Sys2Proof

/-- A general register, a counter or an ALU operand: 64 bits (R22, R24, R31). -/
abbrev Word := BitVec 64

end Sys2Proof
end

