-- ==== Sys2Proof/Config.lean ====
section
/-! DEFINITION. The open parameters of the spec (spec/00_scope.md R6; 92_eei_decisions.md, "Open parameters").
A machine holds one `Config` in its state and no step changes it, so a statement about every state is a statement
about every choice of these parameters. `HALT` is `State.ended` (R239). -/

namespace Sys2Proof

/-- `PUSH_FORM`: the operand list of `push` (R6, R196, R197, 90_conflicts.md C3). -/
inductive PushForm where
  /-- `push reg`, the form of Table 1 and the default (R196). -/
  | table1
  /-- `push size reg`, the form of the source's prose (R197). -/
  | prose
deriving DecidableEq, Repr

/-- `c_shift0`: what a shift by 0 writes to flag `c` (R30(c); 92_eei_decisions.md gives both alternatives). -/
inductive ShiftZeroCarry where
  /-- a constant bit -/
  | const (b : Bool)
  /-- "keep the old `c`" -/
  | keep
deriving DecidableEq, Repr

/-- An address range of `DEVICES`: bit addresses `first .. first + size - 1` (20_memory.md R58; 92_eei_decisions.md,
"Open parameters"). -/
structure DeviceRange where
  first : Nat
  size : Nat
deriving DecidableEq, Repr

/-- One access that touches a device, whole (R57: an access is one step): the bits read, or the bits written. -/
inductive DeviceAccess where
  | read (addr n : Nat)
  | write (addr : Nat) (bits : List Bool)
deriving DecidableEq, Repr

/-- The parameters one machine fixes (R6). -/
structure Config where
  /-- `MEMBITS`: the number of one-bit cells of memory (R50) -/
  memBits : Nat
  /-- `c_logic`: what or, and, xor write to flag `c` (R30(b)) -/
  cLogic : Bool
  /-- `c_shift0`: what a shift by 0 writes to flag `c` (R30(c)) -/
  cShift0 : ShiftZeroCarry
  /-- `PUSH_FORM` -/
  pushForm : PushForm
  /-- `DEVICES`: where devices are mapped; none by default (R58, 60_exceptions.md R219) -/
  devices : List DeviceRange
deriving DecidableEq, Repr

/-- `0 < MEMBITS <= 2^64`, the constraint of R6. -/
abbrev Config.Valid (cfg : Config) : Prop := 0 < cfg.memBits ∧ cfg.memBits ≤ 2 ^ 64

/-- The bit address belongs to a device. -/
def Config.isDevice (cfg : Config) (a : Nat) : Bool :=
  cfg.devices.any fun r => decide (r.first ≤ a) && decide (a < r.first + r.size)

/-- Some of the `n` bits from address `a` on belongs to a device. -/
def Config.touchesDevice (cfg : Config) (a n : Nat) : Bool := (List.range n).any fun j => cfg.isDevice (a + j)

/-- The access touches a device. -/
def DeviceAccess.touches (cfg : Config) : DeviceAccess → Bool
  | .read a n => cfg.touchesDevice a n
  | .write a l => cfg.touchesDevice a l.length

/-- The read behaviour of `DEVICES`: what the device at bit address `a` answers to a read, after the accesses `log`, the
latest first. The spec leaves it to the platform (R58, R219), so it is a free value: nothing is known of it. Write
behaviour is what a write leaves in the log. DESIGN CHOICE, log 11. -/
opaque Config.deviceBit (log : List DeviceAccess) (a : Nat) : Bool

end Sys2Proof
end

