-- ==== Sys2Proof/Syntax.lean ====
section
/-! DEFINITION. Instructions and their operands: one constructor of `Instr` for each row of
spec/opcode_table.json, one inductive for each operand class of spec/30_encoding.md R84. A variable-length operand
keeps the form it is encoded in, since a value may be encoded in a longer form than it needs (R99). -/

namespace Sys2Proof

/-- `reg`: the eight general registers (R21, R85). -/
inductive Reg where
  | r0 | r1 | r2 | r3 | r4 | r5 | r6 | r7
deriving DecidableEq, Repr

/-- `ctr`: the four address counters of Table 4 (R31, R92). -/
inductive Ctr where
  | pc | sp | a0 | a1
deriving DecidableEq, Repr

/-- `dir`: the direction of a logical shift (R93). -/
inductive Dir where
  | left | right
deriving DecidableEq, Repr

/-- `cond`: the eight conditions of Table 3 (R91). -/
inductive Cond where
  | eq | neq | sgt | slt | gt | ge | lt | v
deriving DecidableEq, Repr

/-- `size`: a memory access width in bits (R90). -/
inductive Size where
  | b1 | b4 | b8 | b16 | b32 | b64
deriving DecidableEq, Repr

/-- `const`: an ALU constant in one of its four forms (R87). -/
inductive Const where
  | k1 (b : BitVec 1)
  | k8 (b : BitVec 8)
  | k32 (b : BitVec 32)
  | k64 (b : BitVec 64)
deriving DecidableEq, Repr

/-- `addr`: an address or displacement in one of its four forms (R88). -/
inductive Addr where
  | a8 (b : BitVec 8)
  | a16 (b : BitVec 16)
  | a32 (b : BitVec 32)
  | a64 (b : BitVec 64)
deriving DecidableEq, Repr

/-- `shiftval`: a shift amount, the one-bit code of amount 1 or six explicit bits (R89). -/
inductive ShiftVal where
  | one
  | amount (h : BitVec 6)
deriving DecidableEq, Repr

/-- The instructions of Table 1 (R96), the three reserved code words among them (R98). In every form the first
register is the destination, if there is one (R94, R95). `letr` is `let` and `ret` is `return`, words Lean keeps
for itself. -/
inductive Instr where
  | add2 (d s : Reg)
  | add2i (d : Reg) (k : Const)
  | sub2 (d s : Reg)
  | sub2i (d : Reg) (k : Const)
  | cmp (d s : Reg)
  | cmpi (d : Reg) (k : Const)
  | letr (d s : Reg)
  | leti (d : Reg) (k : Const)
  | shift (dir : Dir) (d : Reg) (h : ShiftVal)
  | readze (c : Ctr) (z : Size) (d : Reg)
  | readse (c : Ctr) (z : Size) (d : Reg)
  | jump (a : Addr)
  | jumpif (cc : Cond) (a : Addr)
  | or2 (d s : Reg)
  | or2i (d : Reg) (k : Const)
  | and2 (d s : Reg)
  | and2i (d : Reg) (k : Const)
  | write (c : Ctr) (z : Size) (r : Reg)
  | call (a : Addr)
  | setctr (c : Ctr) (r : Reg)
  | getctr (c : Ctr) (d : Reg)
  /-- `push`: without a size the form of Table 1 (R196), with one the form of the prose (R197). -/
  | push (z : Option Size) (r : Reg)
  | ret
  | add3 (d s t : Reg)
  | add3i (d s : Reg) (k : Const)
  | sub3 (d s t : Reg)
  | sub3i (d s : Reg) (k : Const)
  | and3 (d s t : Reg)
  | and3i (d s : Reg) (k : Const)
  | or3 (d s t : Reg)
  | or3i (d s : Reg) (k : Const)
  | xor3 (d s t : Reg)
  | xor3i (d s : Reg) (k : Const)
  | asr3 (d s : Reg) (h : ShiftVal)
  | reserved1111101
  | reserved1111110
  | reserved1111111
deriving DecidableEq, Repr

end Sys2Proof
end

