-- ==== Sys2Proof/WellFormed.lean ====
section
/-! DEFINITION. Which instructions a machine has. Every operand class accepts every bit pattern (spec/30_encoding.md
R99), so an operand's type says all there is to say of it; the one check is that `push` has the operand list its
machine's `PUSH_FORM` gives it (R196, R197; 92_eei_decisions.md D14). -/

namespace Sys2Proof

/-- `push` has the operands of the machine's form: a register (`table1`), or a size and a register (`prose`). -/
def PushForm.admits (f : PushForm) (z : Option Size) : Bool :=
  match f with
  | .table1 => z.isNone
  | .prose => z.isSome

/-- The instruction exists on a machine whose `PUSH_FORM` is `f`. -/
def Instr.wellFormed (f : PushForm) (i : Instr) : Bool :=
  match i with
  | .push z _ => f.admits z
  | .add2 .. | .add2i .. | .sub2 .. | .sub2i .. | .cmp .. | .cmpi .. | .letr .. | .leti .. | .shift ..
  | .readze .. | .readse .. | .jump .. | .jumpif .. | .or2 .. | .or2i .. | .and2 .. | .and2i .. | .write ..
  | .call .. | .setctr .. | .getctr .. | .ret | .add3 .. | .add3i .. | .sub3 .. | .sub3i .. | .and3 ..
  | .and3i .. | .or3 .. | .or3i .. | .xor3 .. | .xor3i .. | .asr3 .. | .reserved1111101
  | .reserved1111110 | .reserved1111111 => true

end Sys2Proof
end

