-- ==== Sys2Proof/Decode.lean ====
section
/-! DEFINITION. Bits and bit strings, the decoder and the encoder (spec/30_encoding.md R80 to R101). An instruction
is a bit string, first bit first; a field has its most significant bit first (R8, R83). The decoder is written once,
as a `BitParser`: it asks for the next `n` bits and goes on from them, which is how the processor reads an
instruction (R82). It is run here on a list of bits and in Machine/Fetch.lean on the memory at `pc`. -/

namespace Sys2Proof

/-! ## Bits of a value, most significant first (R8, R51) -/

/-- The bits of `v`, most significant first. -/
def toBits {n : Nat} (v : BitVec n) : List Bool := (List.range n).map fun j => v.getMsbD j

/-- The number whose binary digits are `l`, most significant first. -/
def bitsToNat (l : List Bool) : Nat := l.foldl (fun acc b => 2 * acc + b.toNat) 0

/-- The `n`-bit value whose bits are `l`, most significant first. -/
def ofBits (n : Nat) (l : List Bool) : BitVec n := BitVec.ofNat n (bitsToNat l)

/-- The first `n` bits of a bit string and the rest of it, if it has so many. -/
def splitBits : Nat → List Bool → Option (List Bool × List Bool)
  | 0, l => some ([], l)
  | _ + 1, [] => none
  | n + 1, b :: l => (splitBits n l).map fun p => (b :: p.1, p.2)

/-! ## Reading fields one after another (R82) -/

/-- A reader of bit fields: it has its answer, or it takes the next `n` bits and goes on from their value. -/
inductive BitParser (α : Type) : Type where
  | done (a : α)
  | take (n : Nat) (k : BitVec n → BitParser α)

/-- Read with `p`, then with what `g` makes of its answer. -/
def BitParser.bind {α β : Type} : BitParser α → (α → BitParser β) → BitParser β
  | .done a, g => g a
  | .take n k, g => .take n fun v => (k v).bind g

/-- Why a bit string is not an instruction: it ends before the last operand does. Every other string is one (R99). -/
inductive DecodeError where
  | truncated
deriving DecidableEq, Repr

/-- Read from a bit string: the answer and the bits that follow. -/
def BitParser.runList {α : Type} : BitParser α → List Bool → Except DecodeError (α × List Bool)
  | .done a, l => .ok (a, l)
  | .take n k, l =>
    match splitBits n l with
    | none => .error .truncated
    | some (h, t) => (k (ofBits n h)).runList t

/-! ## Operand classes: the code of an operand and the reader of it -/

/-- The number of a register (R85). -/
def Reg.number : Reg → Nat
  | .r0 => 0 | .r1 => 1 | .r2 => 2 | .r3 => 3 | .r4 => 4 | .r5 => 5 | .r6 => 6 | .r7 => 7

/-- The register of a 3-bit number (R85). -/
def Reg.ofCode (v : BitVec 3) : Reg :=
  match v.toNat with
  | 0 => .r0 | 1 => .r1 | 2 => .r2 | 3 => .r3 | 4 => .r4 | 5 => .r5 | 6 => .r6 | _ => .r7

/-- The code of a `reg` operand: its number in binary (R85). -/
def Reg.bits (r : Reg) : List Bool := toBits (BitVec.ofNat 3 r.number)

/-- Reader of a `reg` operand (R85). -/
def parseReg : BitParser Reg := .take 3 fun v => .done (Reg.ofCode v)

/-- The number of a counter (R92). -/
def Ctr.number : Ctr → Nat
  | .pc => 0 | .sp => 1 | .a0 => 2 | .a1 => 3

/-- The counter of a 2-bit code (R92). -/
def Ctr.ofCode (v : BitVec 2) : Ctr :=
  match v.toNat with
  | 0 => .pc | 1 => .sp | 2 => .a0 | _ => .a1

/-- The code of a `ctr` operand (R92). -/
def Ctr.bits (c : Ctr) : List Bool := toBits (BitVec.ofNat 2 c.number)

/-- Reader of a `ctr` operand (R92). -/
def parseCtr : BitParser Ctr := .take 2 fun v => .done (Ctr.ofCode v)

/-- The code of a `dir` operand: `left` 0, `right` 1 (R93). -/
def Dir.bits : Dir → List Bool
  | .left => [false]
  | .right => [true]

/-- Reader of a `dir` operand (R93). -/
def parseDir : BitParser Dir := .take 1 fun v => .done (if v = 0#1 then .left else .right)

/-- The 3-bit number of a condition (R91). -/
def Cond.number : Cond → Nat
  | .eq => 0 | .neq => 1 | .sgt => 2 | .slt => 3 | .gt => 4 | .ge => 5 | .lt => 6 | .v => 7

/-- The condition of a 3-bit code (R91). -/
def Cond.ofCode (v : BitVec 3) : Cond :=
  match v.toNat with
  | 0 => .eq | 1 => .neq | 2 => .sgt | 3 => .slt | 4 => .gt | 5 => .ge | 6 => .lt | _ => .v

/-- The code of a `cond` operand (R91). -/
def Cond.bits (c : Cond) : List Bool := toBits (BitVec.ofNat 3 c.number)

/-- Reader of a `cond` operand (R91). -/
def parseCond : BitParser Cond := .take 3 fun v => .done (Cond.ofCode v)

/-- The code of a `size` operand (R90). -/
def Size.bits : Size → List Bool
  | .b1 => [false, false]
  | .b4 => [false, true]
  | .b8 => [true, false, false]
  | .b16 => [true, false, true]
  | .b32 => [true, true, false]
  | .b64 => [true, true, true]

/-- The size of a two-bit code's last bit (R90). -/
def Size.ofShort (v : BitVec 1) : Size := if v = 0#1 then .b1 else .b4

/-- The size of a three-bit code's last two bits (R90). -/
def Size.ofLong (v : BitVec 2) : Size :=
  match v.toNat with
  | 0 => .b8 | 1 => .b16 | 2 => .b32 | _ => .b64

/-- Reader of a `size` operand: one bit, then one more or two more (R90). -/
def parseSize : BitParser Size :=
  .take 1 fun b =>
    if b = 0#1 then .take 1 fun v => .done (Size.ofShort v)
    else .take 2 fun v => .done (Size.ofLong v)

/-- The code of a `const` operand: a prefix of 1 to 3 bits and the payload (R87). -/
def Const.bits : Const → List Bool
  | .k1 b => [false] ++ toBits b
  | .k8 b => [true, false] ++ toBits b
  | .k32 b => [true, true, false] ++ toBits b
  | .k64 b => [true, true, true] ++ toBits b

/-- Reader of a `const` operand (R87, "Decoding"). -/
def parseConst : BitParser Const :=
  .take 1 fun b1 =>
    if b1 = 0#1 then .take 1 fun v => .done (.k1 v)
    else .take 1 fun b2 =>
      if b2 = 0#1 then .take 8 fun v => .done (.k8 v)
      else .take 1 fun b3 =>
        if b3 = 0#1 then .take 32 fun v => .done (.k32 v)
        else .take 64 fun v => .done (.k64 v)

/-- The code of an `addr` operand: a prefix of 1 to 3 bits and the payload (R88). -/
def Addr.bits : Addr → List Bool
  | .a8 b => [false] ++ toBits b
  | .a16 b => [true, false] ++ toBits b
  | .a32 b => [true, true, false] ++ toBits b
  | .a64 b => [true, true, true] ++ toBits b

/-- Reader of an `addr` operand (R88). -/
def parseAddr : BitParser Addr :=
  .take 1 fun b1 =>
    if b1 = 0#1 then .take 8 fun v => .done (.a8 v)
    else .take 1 fun b2 =>
      if b2 = 0#1 then .take 16 fun v => .done (.a16 v)
      else .take 1 fun b3 =>
        if b3 = 0#1 then .take 32 fun v => .done (.a32 v)
        else .take 64 fun v => .done (.a64 v)

/-- The code of a `shiftval` operand (R89). -/
def ShiftVal.bits : ShiftVal → List Bool
  | .one => [true]
  | .amount h => [false] ++ toBits h

/-- Reader of a `shiftval` operand (R89). -/
def parseShiftVal : BitParser ShiftVal :=
  .take 1 fun b => if b = 0#1 then .take 6 fun h => .done (.amount h) else .done .one

/-! ## Formats: the operand lists of R94, in stream order (R83) -/

/-- Format `RR`. -/
def parseRR (mk : Reg → Reg → Instr) : BitParser Instr :=
  parseReg.bind fun d => parseReg.bind fun s => .done (mk d s)

/-- Format `RC`. -/
def parseRC (mk : Reg → Const → Instr) : BitParser Instr :=
  parseReg.bind fun d => parseConst.bind fun k => .done (mk d k)

/-- Format `SH`. -/
def parseSH (mk : Dir → Reg → ShiftVal → Instr) : BitParser Instr :=
  parseDir.bind fun x => parseReg.bind fun d => parseShiftVal.bind fun h => .done (mk x d h)

/-- Format `MEM`. -/
def parseMEM (mk : Ctr → Size → Reg → Instr) : BitParser Instr :=
  parseCtr.bind fun c => parseSize.bind fun z => parseReg.bind fun r => .done (mk c z r)

/-- Format `J`. -/
def parseJ (mk : Addr → Instr) : BitParser Instr :=
  parseAddr.bind fun a => .done (mk a)

/-- Format `JC`. -/
def parseJC (mk : Cond → Addr → Instr) : BitParser Instr :=
  parseCond.bind fun cc => parseAddr.bind fun a => .done (mk cc a)

/-- Format `CR`. -/
def parseCR (mk : Ctr → Reg → Instr) : BitParser Instr :=
  parseCtr.bind fun c => parseReg.bind fun r => .done (mk c r)

/-- Format `R` of `push`, or `size reg` when the machine's `PUSH_FORM` is `prose` (R196, R197). -/
def parsePush (f : PushForm) : BitParser Instr :=
  match f with
  | .table1 => parseReg.bind fun r => .done (.push none r)
  | .prose => parseSize.bind fun z => parseReg.bind fun r => .done (.push (some z) r)

/-- Format `RRR`. -/
def parseRRR (mk : Reg → Reg → Reg → Instr) : BitParser Instr :=
  parseReg.bind fun d => parseReg.bind fun s => parseReg.bind fun t => .done (mk d s t)

/-- Format `RRC`. -/
def parseRRC (mk : Reg → Reg → Const → Instr) : BitParser Instr :=
  parseReg.bind fun d => parseReg.bind fun s => parseConst.bind fun k => .done (mk d s k)

/-- Format `RRS`. -/
def parseRRS (mk : Reg → Reg → ShiftVal → Instr) : BitParser Instr :=
  parseReg.bind fun d => parseReg.bind fun s => parseShiftVal.bind fun h => .done (mk d s h)

/-! ## The opcode map (R81, R82, R96) -/

/-- After `1001`: one more bit. -/
def parse1001 (x : BitVec 1) : BitParser Instr :=
  if x = 0#1 then parseMEM .readze else parseMEM .readse

/-- After `1100`: two more bits. -/
def parse1100 (x : BitVec 2) : BitParser Instr :=
  match x.toNat with
  | 0b00 => parseRR .or2
  | 0b01 => parseRC .or2i
  | 0b10 => parseRR .and2
  | _ => parseRC .and2i

/-- After `1101`: two more bits. -/
def parse1101 (x : BitVec 2) : BitParser Instr :=
  match x.toNat with
  | 0b00 => parseMEM .write
  | 0b01 => parseJ .call
  | 0b10 => parseCR .setctr
  | _ => parseCR .getctr

/-- After `1110`: three more bits. -/
def parse1110 (f : PushForm) (x : BitVec 3) : BitParser Instr :=
  match x.toNat with
  | 0b000 => parsePush f
  | 0b001 => .done .ret
  | 0b010 => parseRRR .add3
  | 0b011 => parseRRC .add3i
  | 0b100 => parseRRR .sub3
  | 0b101 => parseRRC .sub3i
  | 0b110 => parseRRR .and3
  | _ => parseRRC .and3i

/-- After `1111`: three more bits; the last three code words are reserved and have no operands (R98). -/
def parse1111 (x : BitVec 3) : BitParser Instr :=
  match x.toNat with
  | 0b000 => parseRRR .or3
  | 0b001 => parseRRC .or3i
  | 0b010 => parseRRR .xor3
  | 0b011 => parseRRC .xor3i
  | 0b100 => parseRRS .asr3
  | 0b101 => .done .reserved1111101
  | 0b110 => .done .reserved1111110
  | _ => .done .reserved1111111

/-- The decoder: the first four bits, then as many more as R82 says, then the operands of the format. -/
def parseInstr (f : PushForm) : BitParser Instr :=
  .take 4 fun b =>
    match b.toNat with
    | 0b0000 => parseRR .add2
    | 0b0001 => parseRC .add2i
    | 0b0010 => parseRR .sub2
    | 0b0011 => parseRC .sub2i
    | 0b0100 => parseRR .cmp
    | 0b0101 => parseRC .cmpi
    | 0b0110 => parseRR .letr
    | 0b0111 => parseRC .leti
    | 0b1000 => parseSH .shift
    | 0b1001 => .take 1 parse1001
    | 0b1010 => parseJ .jump
    | 0b1011 => parseJC .jumpif
    | 0b1100 => .take 2 parse1100
    | 0b1101 => .take 2 parse1101
    | 0b1110 => .take 3 (parse1110 f)
    | _ => .take 3 parse1111

/-- Decode the instruction a bit string begins with: the instruction and the bits that follow it. -/
def decode (f : PushForm) (l : List Bool) : Except DecodeError (Instr × List Bool) :=
  (parseInstr f).runList l

/-! ## The encoder (R94, R96) -/

/-- The bits of an instruction, first bit first: the opcode of Table 1, then the operands in stream order. -/
def encode : Instr → List Bool
  | .add2 d s => toBits 0b0000#4 ++ (d.bits ++ s.bits)
  | .add2i d k => toBits 0b0001#4 ++ (d.bits ++ k.bits)
  | .sub2 d s => toBits 0b0010#4 ++ (d.bits ++ s.bits)
  | .sub2i d k => toBits 0b0011#4 ++ (d.bits ++ k.bits)
  | .cmp d s => toBits 0b0100#4 ++ (d.bits ++ s.bits)
  | .cmpi d k => toBits 0b0101#4 ++ (d.bits ++ k.bits)
  | .letr d s => toBits 0b0110#4 ++ (d.bits ++ s.bits)
  | .leti d k => toBits 0b0111#4 ++ (d.bits ++ k.bits)
  | .shift x d h => toBits 0b1000#4 ++ (x.bits ++ (d.bits ++ h.bits))
  | .readze c z d => toBits 0b10010#5 ++ (c.bits ++ (z.bits ++ d.bits))
  | .readse c z d => toBits 0b10011#5 ++ (c.bits ++ (z.bits ++ d.bits))
  | .jump a => toBits 0b1010#4 ++ a.bits
  | .jumpif cc a => toBits 0b1011#4 ++ (cc.bits ++ a.bits)
  | .or2 d s => toBits 0b110000#6 ++ (d.bits ++ s.bits)
  | .or2i d k => toBits 0b110001#6 ++ (d.bits ++ k.bits)
  | .and2 d s => toBits 0b110010#6 ++ (d.bits ++ s.bits)
  | .and2i d k => toBits 0b110011#6 ++ (d.bits ++ k.bits)
  | .write c z r => toBits 0b110100#6 ++ (c.bits ++ (z.bits ++ r.bits))
  | .call a => toBits 0b110101#6 ++ a.bits
  | .setctr c r => toBits 0b110110#6 ++ (c.bits ++ r.bits)
  | .getctr c d => toBits 0b110111#6 ++ (c.bits ++ d.bits)
  | .push none r => toBits 0b1110000#7 ++ r.bits
  | .push (some z) r => toBits 0b1110000#7 ++ (z.bits ++ r.bits)
  | .ret => toBits 0b1110001#7
  | .add3 d s t => toBits 0b1110010#7 ++ (d.bits ++ (s.bits ++ t.bits))
  | .add3i d s k => toBits 0b1110011#7 ++ (d.bits ++ (s.bits ++ k.bits))
  | .sub3 d s t => toBits 0b1110100#7 ++ (d.bits ++ (s.bits ++ t.bits))
  | .sub3i d s k => toBits 0b1110101#7 ++ (d.bits ++ (s.bits ++ k.bits))
  | .and3 d s t => toBits 0b1110110#7 ++ (d.bits ++ (s.bits ++ t.bits))
  | .and3i d s k => toBits 0b1110111#7 ++ (d.bits ++ (s.bits ++ k.bits))
  | .or3 d s t => toBits 0b1111000#7 ++ (d.bits ++ (s.bits ++ t.bits))
  | .or3i d s k => toBits 0b1111001#7 ++ (d.bits ++ (s.bits ++ k.bits))
  | .xor3 d s t => toBits 0b1111010#7 ++ (d.bits ++ (s.bits ++ t.bits))
  | .xor3i d s k => toBits 0b1111011#7 ++ (d.bits ++ (s.bits ++ k.bits))
  | .asr3 d s h => toBits 0b1111100#7 ++ (d.bits ++ (s.bits ++ h.bits))
  | .reserved1111101 => toBits 0b1111101#7
  | .reserved1111110 => toBits 0b1111110#7
  | .reserved1111111 => toBits 0b1111111#7

/-! ## The words of spec/opcode_table.json (R101) -/

/-- The length of the longest instruction (R97). -/
def maxInstrBits : Nat := 80

/-- The instruction whose bits are `w` in the table's numbering: the low seven bits of `w` are the instruction's
first seven, bit 6 first (R101: "a 7-bit number whose most significant bit is the first bit of the instruction").
Bit `j` of `w` for `7 <= j < nbits` is the instruction's bit `j`; every bit from `nbits` on is 0.
DEDUCED, log 9. -/
def tableBits (nbits w : Nat) : List Bool :=
  toBits (BitVec.ofNat 7 (w % 2 ^ nbits)) ++
    (List.range (maxInstrBits - 7)).map fun j => (w % 2 ^ nbits).testBit (7 + j)

/-- What the decoder reads from a word of the opcode table, on a machine with Table 1's `push`. -/
def decodeTableWord (nbits w : Nat) : Option Instr :=
  match decode .table1 (tableBits nbits w) with
  | .ok (i, _) => some i
  | .error _ => none

end Sys2Proof
end

