-- ==== Sys2Proof/Machine/ResetValues.lean ====
section
/-! DEFINITION. The values at reset that the spec leaves unspecified (spec/10_state.md R37, 70_reset_and_hazards.md
R231) and the parameters it leaves open (00_scope.md R6). Every one is DESIGN CHOICE and unsafe for a claim about
`State.reset`; `State.launch` (Machine/Fetch.lean) takes them all as arbitrary, as R231 and R232 do. -/

namespace Sys2Proof.Machine

/-- What `r0`..`r7`, `sp`, `a0` and `a1` hold at reset. DESIGN CHOICE, log 1: the spec says "unspecified" and "never zero
by default" (93_implementation_defined.md U1). -/
def unspecifiedWord : Word := 1024

/-- What `z` holds at reset. DESIGN CHOICE, log 1: this and the next three are the flags the spec's vectors start with
(95_test_vectors.md section 0); the spec says "unspecified". -/
def unspecifiedZ : Bool := false

/-- What `c` holds at reset. DESIGN CHOICE, log 1. -/
def unspecifiedC : Bool := true

/-- What `v` holds at reset. DESIGN CHOICE, log 1. -/
def unspecifiedV : Bool := true

/-- What `n` holds at reset. DESIGN CHOICE, log 1. -/
def unspecifiedN : Bool := false

/-- The parameters of the machine `State.reset` stands for: `c_logic`, `c_shift0` and `PUSH_FORM` at the defaults of
R6, `DEVICES` too,
`MEMBITS` at the size the spec's vectors use (92_eei_decisions.md). DESIGN CHOICE, logs 3, 4, 5 and 11. -/
def resetConfig : Config where
  memBits := 4096
  cLogic := false
  cShift0 := .const false
  pushForm := .table1
  devices := []

end Sys2Proof.Machine
end

