-- ==== Sys2Proof/Machine/State.lean ====
section
/-! DEFINITION. The state of the machine, exactly the pieces of spec/10_state.md R20, and how a step can stop
(60_exceptions.md R212). Plain data throughout. -/

namespace Sys2Proof.Machine

/-- The faults: "the fault causes, complete list" (R212). Each stops the machine (R211) and is safe: the source gives
the machine no behaviour at that point (R210). -/
inductive Fault where
  /-- The 7 bits at `pc` are a reserved opcode. Raised by the meanings of the three reserved code words (R98). Safe. -/
  | reservedOpcode (bits : BitVec 7)
  /-- A fetch, `readze`, `readse`, `write` or `push` touches a bit outside memory; `addr` is the first such bit
  address (R52, R53). Raised by `memRead` and `memWrite`. Safe. -/
  | memFault (addr : Nat)
deriving DecidableEq, Repr

/-- Refusals. The model makes none: every instruction has its meaning. -/
inductive Refusal where
  /-- An instruction the model gives no meaning to. Raised by no arm of `exec`. Safe. -/
  | notModelled (mnemonic : String)
deriving DecidableEq, Repr

/-- Fault status: "running, or faulted with a reason" (R20, R211). -/
inductive Status where
  | running
  | faulted (f : Fault)
deriving DecidableEq, Repr

/-- The four one-bit flags (R25). -/
structure Flags where
  z : Bool
  c : Bool
  v : Bool
  n : Bool
deriving DecidableEq, Repr

/-- The eight general registers, 64 bits each (R21, R22). -/
structure Regs where
  r0 : Word
  r1 : Word
  r2 : Word
  r3 : Word
  r4 : Word
  r5 : Word
  r6 : Word
  r7 : Word
deriving DecidableEq, Repr

/-- The memory: the bits that differ from what an unlisted address reads as (`Memory.unlisted`), each with its bit
address, addresses strictly rising. The unit of addressing is the bit (R36, R50, R51; log 7). -/
abbrev Memory := List (Nat × Bool)

/-- The architectural state (R20), and the parameters the machine was built with (R6), which no step changes. -/
structure State where
  regs : Regs
  flags : Flags
  /-- counter 0, the program counter (R24) -/
  pc : Word
  /-- counter 1, the stack pointer (R33) -/
  sp : Word
  /-- counter 2 (R31) -/
  a0 : Word
  /-- counter 3 (R31) -/
  a1 : Word
  mem : Memory
  /-- the accesses that touched a device, latest first: the MODEL's own field, from which a device answers (R58; log 11);
  it stays as it is where `cfg.devices` is empty -/
  io : List DeviceAccess
  status : Status
  cfg : Config
deriving DecidableEq, Repr

/-- All eight registers hold `w`. -/
def Regs.all (w : Word) : Regs := ⟨w, w, w, w, w, w, w, w⟩

/-- The machine right after reset (R37, R230): `pc` is 0 and the machine is running, as the spec says; the values it
leaves unspecified are those of Machine/ResetValues.lean, and memory has nothing listed (logs 1, 2, 3). -/
def State.reset : State where
  regs := Regs.all unspecifiedWord
  flags := { z := unspecifiedZ, c := unspecifiedC, v := unspecifiedV, n := unspecifiedN }
  pc := 0
  sp := unspecifiedWord
  a0 := unspecifiedWord
  a1 := unspecifiedWord
  mem := []
  io := []
  status := .running
  cfg := resetConfig

end Sys2Proof.Machine
end

