-- ==== Sys2Proof/Machine/Ops.lean ====
section
/-! DEFINITION. The named operations every meaning is written over: registers, counters, flags, memory
(spec/00_scope.md R9, 20_memory.md) and raising a fault (60_exceptions.md). -/

namespace Sys2Proof.Machine

/-! ## General registers (R9, R21) -/

/-- `x[i]`. -/
def Regs.get (g : Regs) : Reg → Word
  | .r0 => g.r0 | .r1 => g.r1 | .r2 => g.r2 | .r3 => g.r3
  | .r4 => g.r4 | .r5 => g.r5 | .r6 => g.r6 | .r7 => g.r7

/-- The register file after `x[i] <- w`. -/
def Regs.set (g : Regs) (r : Reg) (w : Word) : Regs :=
  match r with
  | .r0 => { g with r0 := w } | .r1 => { g with r1 := w } | .r2 => { g with r2 := w } | .r3 => { g with r3 := w }
  | .r4 => { g with r4 := w } | .r5 => { g with r5 := w } | .r6 => { g with r6 := w } | .r7 => { g with r7 := w }

/-- `x[r]` (R9). -/
def State.reg (s : State) (r : Reg) : Word := s.regs.get r

/-- `x[r] <- w` (R9). No register is hard-wired (R21). -/
def State.setReg (s : State) (r : Reg) (w : Word) : State := { s with regs := s.regs.set r w }

/-! ## Counters (R9, R31) -/

/-- `ctr[k]` (R9). -/
def State.ctr (s : State) : Ctr → Word
  | .pc => s.pc | .sp => s.sp | .a0 => s.a0 | .a1 => s.a1

/-- `ctr[k] <- w` (R9), both replicas of the counter (R34). -/
def State.setCtr (s : State) (k : Ctr) (w : Word) : State :=
  match k with
  | .pc => { s with pc := w } | .sp => { s with sp := w } | .a0 => { s with a0 := w } | .a1 => { s with a1 := w }

/-- A counter advances by the number of bits moved, modulo `2^64` (R32). -/
def State.advance (s : State) (k : Ctr) (n : Nat) : State := s.setCtr k (s.ctr k + BitVec.ofNat 64 n)

/-! ## Flags -/

/-- The four flags take new values; a flag an instruction does not update is given its old value (R25). -/
def State.setFlags (s : State) (f : Flags) : State := { s with flags := f }

/-! ## Memory (R50 to R53) -/

/-- What an unlisted bit reads as. DESIGN CHOICE, log 2, unsafe for a claim about `State.reset`: the spec leaves bits
outside the image unspecified (R37). Any contents of memory can be written as a `Memory`. -/
def Memory.unlisted (_ : Nat) : Bool := false

/-- `mem[a]`. -/
def Memory.read : Memory → Nat → Bool
  | [], a => Memory.unlisted a
  | (k, b) :: m, a => if k = a then b else Memory.read m a

/-- The memory after `mem[a] <- b`, in canonical form: an entry that would equal what an unlisted address reads as is
left out. -/
def Memory.write : Memory → Nat → Bool → Memory
  | [], a, b => if b = Memory.unlisted a then [] else [(a, b)]
  | (k, x) :: m, a, b =>
    if a < k then (if b = Memory.unlisted a then (k, x) :: m else (a, b) :: (k, x) :: m)
    else if a = k then (if b = Memory.unlisted a then m else (a, b) :: m)
    else (k, x) :: Memory.write m a b

/-- The canonical form: addresses strictly rising, no entry equal to what an unlisted address reads as. -/
abbrev Memory.WF (m : Memory) : Prop :=
  m.Pairwise (fun x y => x.1 < y.1) ∧ ∀ c ∈ m, c.2 ≠ Memory.unlisted c.1

/-- The `n` bits from address `a` on, lowest address first. -/
def Memory.readBits (m : Memory) (a n : Nat) : List Bool := (List.range n).map fun j => Memory.read m (a + j)

/-- The memory after the bits `l` are stored from address `a` on, first bit at the lowest address. -/
def Memory.writeBits : Memory → Nat → List Bool → Memory
  | m, _, [] => m
  | m, a, b :: l => Memory.writeBits (Memory.write m a b) (a + 1) l

/-! ## Memory and devices as an access meets them (R52, R53, R58) -/

/-- The memory cell at address `a` (R50). -/
def State.cell (s : State) (a : Nat) : Bool := Memory.read s.mem a

/-- What a read of the bit at address `a` answers: the memory cell, or what a device mapped there says (R58; log 11). -/
def State.bit (s : State) (a : Nat) : Bool := if s.cfg.isDevice a then Config.deviceBit s.io a else s.cell a

/-- What a read of `n` bits from address `a` on answers, lowest address first. -/
def State.bits (s : State) (a n : Nat) : List Bool := (List.range n).map fun j => s.bit (a + j)

/-- The device log after an access: the access is added if it touches a device (R58; log 11). -/
def State.ioAfter (s : State) (e : DeviceAccess) : List DeviceAccess := if e.touches s.cfg then e :: s.io else s.io

/-- The machine after a device, if one was touched, has seen an access. -/
def State.note (s : State) (e : DeviceAccess) : State := { s with io := s.ioAfter e }

/-- The `n` bits at `addr` lie inside memory (R52, R53: address arithmetic as integers, not wrapped). -/
abbrev State.inMemory (s : State) (addr : Word) (n : Nat) : Prop := addr.toNat + n ≤ s.cfg.memBits

/-- The fault of an access at `addr` that is not inside memory: it records the first address out of range
(R52, R53). -/
def State.outOfMemory (s : State) (addr : Word) : Fault := .memFault (max addr.toNat s.cfg.memBits)

/-- The value `MemRead(addr, n)` returns: most significant bit at the lowest address; nothing is read if a bit is out of
range (R52). -/
def State.memRead (s : State) (addr : Word) (n : Nat) : Except Fault (BitVec n) :=
  if s.inMemory addr n then .ok (ofBits n (s.bits addr.toNat n)) else .error (s.outOfMemory addr)

/-- `MemWrite(addr, n, v)`: nothing is written if a bit is out of range (R53). A device touched sees the access; the
cells under it are written too, which no read sees (log 11). -/
def State.memWrite (s : State) (addr : Word) {n : Nat} (v : BitVec n) : Except Fault State :=
  if s.inMemory addr n then
    .ok (State.note { s with mem := Memory.writeBits s.mem addr.toNat (toBits v) } (.write addr.toNat (toBits v)))
  else .error (s.outOfMemory addr)

/-- Read `n` bits through counter `k`: the value, and the state with the counter advanced (R190 to R192). With `pc` it is
`Fetch(n)` (R9). -/
def State.readThrough (s : State) (k : Ctr) (n : Nat) : Except Fault (BitVec n × State) :=
  match s.memRead (s.ctr k) n with
  | .ok v => .ok (v, (s.note (.read (s.ctr k).toNat n)).advance k n)
  | .error f => .error f

/-- Write `v` through counter `k`: the state with the bits stored and the counter advanced (R190, R193). -/
def State.writeThrough (s : State) (k : Ctr) {n : Nat} (v : BitVec n) : Except Fault State :=
  match s.memWrite (s.ctr k) v with
  | .ok t => .ok (t.advance k n)
  | .error f => .error f

/-- Store bits from `addr` on, the way a loader does (R232): a bit whose address is outside memory is not stored.
Addresses go on modulo `2^64`, as `pc` does (R24). -/
def State.loadBits (s : State) (addr : Word) : List Bool → State
  | [] => s
  | b :: l =>
    State.loadBits
      (if addr.toNat < s.cfg.memBits then { s with mem := Memory.write s.mem addr.toNat b } else s) (addr + 1) l

/-! ## Faults (R210 to R214) -/

/-- `raise F(info)` ends the step (R9, R211): the host's outcome carries the fault, and the machine is then in the
state `State.advanceMachine` gives (Safety.lean). Nothing the instruction would have written is written (R214). There is
no trap entry, no handler and no return from one (R214). -/
def raise (f : Fault) : Host.Outcome State Fault Refusal := .fault f

/-- The faulted state of a machine that raised `f`, where `s` is the machine as the fetch left it: registers, flags, data
counters and memory hold what they held before the faulting instruction, and `pc` has advanced over the fields of it
that were fetched (R211; log 6). -/
def State.enterFault (s : State) (f : Fault) : State := { s with status := .faulted f }

/-- An operation that may fault ends the instruction. -/
def finish : Except Fault State → Host.Outcome State Fault Refusal
  | .ok s => .next s
  | .error f => raise f

end Sys2Proof.Machine
end

