-- ==== Sys2Proof/Machine/Flags.lean ====
section
/-! DEFINITION. Every flag computation (spec/00_scope.md R10; 10_state.md R25 to R30) and the conditions over the
flags (30_encoding.md R91). -/

namespace Sys2Proof.Machine

/-- `AddFlags(x, y)`: the sum and the flags it sets (R10). `c` is the carry out of bit 63 (R30(a); D10, log 14). -/
def addFlags (x y : Word) : Word × Flags :=
  let r := x + y
  (r, { z := r == 0
        n := r.msb
        c := decide (2 ^ 64 ≤ x.toNat + y.toNat)
        v := x.msb == y.msb && r.msb != x.msb })

/-- `SubFlags(x, y)`: the difference and the flags it sets (R10). `c` is the unsigned borrow (R28). -/
def subFlags (x y : Word) : Word × Flags :=
  let r := x - y
  (r, { z := r == 0
        n := r.msb
        c := decide (x.toNat < y.toNat)
        v := x.msb != y.msb && r.msb != x.msb })

/-- `LogicFlags(r)`: `v` is unchanged (R10, R150). `c` is `c_logic` (R30(b); D11, log 4). -/
def logicFlags (cfg : Config) (old : Flags) (r : Word) : Word × Flags :=
  (r, { z := r == 0, n := r.msb, c := cfg.cLogic, v := old.v })

/-- `c` after a shift by `k` whose last bit out is `out` (R30(c); D12, logs 4 and 14). -/
def shiftCarry (cfg : Config) (old : Flags) (k : Nat) (out : Bool) : Bool :=
  if k = 0 then
    match cfg.cShift0 with
    | .const b => b
    | .keep => old.c
  else out

/-- The result of a shift by `k` and its flags: `v` is unchanged (R170). -/
def shiftFlags (cfg : Config) (old : Flags) (k : Nat) (r : Word) (out : Bool) : Word × Flags :=
  (r, { z := r == 0, n := r.msb, c := shiftCarry cfg old k out, v := old.v })

/-- `shift left` by `k`: zeros enter at bit 0, the last bit out is `x[64-k]` (R173). -/
def shiftLeft (cfg : Config) (old : Flags) (x : Word) (k : Nat) : Word × Flags :=
  shiftFlags cfg old k (x <<< k) (x.getLsbD (64 - k))

/-- `shift right` by `k`: zeros enter at bit 63, the last bit out is `x[k-1]` (R173). -/
def shiftRight (cfg : Config) (old : Flags) (x : Word) (k : Nat) : Word × Flags :=
  shiftFlags cfg old k (x >>> k) (x.getLsbD (k - 1))

/-- `asr3` by `k`: bit 63 is copied into the vacated positions, the last bit out is `x[k-1]` (R174; D13, log 14). -/
def shiftArith (cfg : Config) (old : Flags) (x : Word) (k : Nat) : Word × Flags :=
  shiftFlags cfg old k (x.sshiftRight k) (x.getLsbD (k - 1))

/-- An ALU instruction writes its result and the flags (R130, R150, R170). -/
def State.writeAlu (s : State) (d : Reg) (r : Word × Flags) : State := (s.setReg d r.1).setFlags r.2

/-- `Cond(ccc)` (R91, R182; 90_conflicts.md C6). -/
def condHolds (f : Flags) : Cond → Bool
  | .eq => f.z
  | .neq => !f.z
  | .sgt => !f.z && (f.n == f.v)
  | .slt => f.n != f.v
  | .gt => !f.z && !f.c
  | .ge => !f.c
  | .lt => f.c
  | .v => f.v

end Sys2Proof.Machine
end

