-- ==== Sys2Proof/Machine/Operands.lean ====
section
/-! DEFINITION. The value of every operand form (spec/30_encoding.md R84 to R93). -/

namespace Sys2Proof.Machine

/-- `zext_W(K)`: the constant of a `z` instruction (R86, R87). -/
def zextConst : Const → Word
  | .k1 b => b.setWidth 64
  | .k8 b => b.setWidth 64
  | .k32 b => b.setWidth 64
  | .k64 b => b

/-- `sext_W(K)`: the constant of an `s` instruction; the 1-bit form is 0 or 1 all the same (R86, R87; D5, log 15). -/
def sextConst : Const → Word
  | .k1 b => b.setWidth 64
  | .k8 b => b.signExtend 64
  | .k32 b => b.signExtend 64
  | .k64 b => b

/-- `d`: the value of an `addr` operand, always sign-extended (R88; 90_conflicts.md C7). -/
def addrValue : Addr → Word
  | .a8 b => b.signExtend 64
  | .a16 b => b.signExtend 64
  | .a32 b => b.signExtend 64
  | .a64 b => b

/-- A shift amount, 0 to 63 (R89). -/
def shiftAmount : ShiftVal → Nat
  | .one => 1
  | .amount h => h.toNat

/-- The number of bits an access moves (R90). -/
def sizeBits : Size → Nat
  | .b1 => 1 | .b4 => 4 | .b8 => 8 | .b16 => 16 | .b32 => 32 | .b64 => 64

/-- The number of bits `push` moves: the whole register, or the size of the prose form (R196, R197). -/
def pushBits : Option Size → Nat
  | none => 64
  | some z => sizeBits z

/-- The address of a `push`'s store: `t <- (sp - n) mod 2^64` (R196, R197). -/
def pushAddr (s : State) (z : Option Size) : Word := s.sp - BitVec.ofNat 64 (pushBits z)

end Sys2Proof.Machine
end

