-- ==== Sys2Proof/Machine/Arith.lean ====
section
/-! DEFINITION. Arithmetic instructions (spec/40_alu_arith.md). A meaning runs when the whole instruction has been
read, so `pc` already holds `a` (00_scope.md R11); sources are read before the destination is written (R130). -/

namespace Sys2Proof.Machine

/-- `add2 rd rs` (R131). -/
def execAdd2 (d r : Reg) (s : State) : Host.Outcome State Fault Refusal :=
  .next (s.writeAlu d (addFlags (s.reg d) (s.reg r)))

/-- `add2i rd K`, zero-extended (R132). -/
def execAdd2i (d : Reg) (k : Const) (s : State) : Host.Outcome State Fault Refusal :=
  .next (s.writeAlu d (addFlags (s.reg d) (zextConst k)))

/-- `sub2 rd rs` (R133). -/
def execSub2 (d r : Reg) (s : State) : Host.Outcome State Fault Refusal :=
  .next (s.writeAlu d (subFlags (s.reg d) (s.reg r)))

/-- `sub2i rd K`, zero-extended (R134). -/
def execSub2i (d : Reg) (k : Const) (s : State) : Host.Outcome State Fault Refusal :=
  .next (s.writeAlu d (subFlags (s.reg d) (zextConst k)))

/-- `cmp rd rs`: the flags of the difference, no register written (R135). -/
def execCmp (d r : Reg) (s : State) : Host.Outcome State Fault Refusal :=
  .next (s.setFlags (subFlags (s.reg d) (s.reg r)).2)

/-- `cmpi rd K`, sign-extended: the flags of the difference, no register written (R136). -/
def execCmpi (d : Reg) (k : Const) (s : State) : Host.Outcome State Fault Refusal :=
  .next (s.setFlags (subFlags (s.reg d) (sextConst k)).2)

/-- `add3 rd rs rt` (R137). -/
def execAdd3 (d r t : Reg) (s : State) : Host.Outcome State Fault Refusal :=
  .next (s.writeAlu d (addFlags (s.reg r) (s.reg t)))

/-- `add3i rd rs K`, zero-extended (R138). -/
def execAdd3i (d r : Reg) (k : Const) (s : State) : Host.Outcome State Fault Refusal :=
  .next (s.writeAlu d (addFlags (s.reg r) (zextConst k)))

/-- `sub3 rd rs rt`: `rd <- rs - rt` (R139). -/
def execSub3 (d r t : Reg) (s : State) : Host.Outcome State Fault Refusal :=
  .next (s.writeAlu d (subFlags (s.reg r) (s.reg t)))

/-- `sub3i rd rs K`, zero-extended: `rd <- rs - k` (R140). -/
def execSub3i (d r : Reg) (k : Const) (s : State) : Host.Outcome State Fault Refusal :=
  .next (s.writeAlu d (subFlags (s.reg r) (zextConst k)))

end Sys2Proof.Machine
end

