-- ==== Sys2Proof/Machine/Branch.lean ====
section
/-! DEFINITION. Branches (spec/43_branch.md). `s.pc` is `a`, the address of the first bit after the instruction (R180).
No flag is written and no branch faults: a target outside memory faults at the next fetch (20_memory.md R60). -/

namespace Sys2Proof.Machine

/-- `jump A`: `pc <- a + d` (R181; 90_conflicts.md C1). -/
def execJump (x : Addr) (s : State) : Host.Outcome State Fault Refusal :=
  .next (s.setCtr .pc (s.pc + addrValue x))

/-- `jumpif cond A`: the same if the condition holds, else `pc` stays `a` (R182). -/
def execJumpif (cc : Cond) (x : Addr) (s : State) : Host.Outcome State Fault Refusal :=
  if condHolds s.flags cc then .next (s.setCtr .pc (s.pc + addrValue x)) else .next s

/-- `call A`: `r7 <- a`, then `pc <- d`, an absolute target (R183). -/
def execCall (x : Addr) (s : State) : Host.Outcome State Fault Refusal :=
  .next ((s.setReg .r7 s.pc).setCtr .pc (addrValue x))

/-- `return`: `pc <- r7` (R184). -/
def execReturn (s : State) : Host.Outcome State Fault Refusal :=
  .next (s.setCtr .pc (s.reg .r7))

end Sys2Proof.Machine
end

