-- ==== Sys2Proof/Machine/Logic.lean ====
section
/-! DEFINITION. Logic instructions (spec/41_alu_logic.md). Every constant of the family is zero-extended; `v` is not
written (R150). -/

namespace Sys2Proof.Machine

/-- `or2 rd rs` (R151). -/
def execOr2 (d r : Reg) (s : State) : Host.Outcome State Fault Refusal :=
  .next (s.writeAlu d (logicFlags s.cfg s.flags (s.reg d ||| s.reg r)))

/-- `or2i rd K` (R152). -/
def execOr2i (d : Reg) (k : Const) (s : State) : Host.Outcome State Fault Refusal :=
  .next (s.writeAlu d (logicFlags s.cfg s.flags (s.reg d ||| zextConst k)))

/-- `and2 rd rs` (R153). -/
def execAnd2 (d r : Reg) (s : State) : Host.Outcome State Fault Refusal :=
  .next (s.writeAlu d (logicFlags s.cfg s.flags (s.reg d &&& s.reg r)))

/-- `and2i rd K` (R154). -/
def execAnd2i (d : Reg) (k : Const) (s : State) : Host.Outcome State Fault Refusal :=
  .next (s.writeAlu d (logicFlags s.cfg s.flags (s.reg d &&& zextConst k)))

/-- `and3 rd rs rt` (R155). -/
def execAnd3 (d r t : Reg) (s : State) : Host.Outcome State Fault Refusal :=
  .next (s.writeAlu d (logicFlags s.cfg s.flags (s.reg r &&& s.reg t)))

/-- `and3i rd rs K` (R156). -/
def execAnd3i (d r : Reg) (k : Const) (s : State) : Host.Outcome State Fault Refusal :=
  .next (s.writeAlu d (logicFlags s.cfg s.flags (s.reg r &&& zextConst k)))

/-- `or3 rd rs rt` (R157). -/
def execOr3 (d r t : Reg) (s : State) : Host.Outcome State Fault Refusal :=
  .next (s.writeAlu d (logicFlags s.cfg s.flags (s.reg r ||| s.reg t)))

/-- `or3i rd rs K` (R158). -/
def execOr3i (d r : Reg) (k : Const) (s : State) : Host.Outcome State Fault Refusal :=
  .next (s.writeAlu d (logicFlags s.cfg s.flags (s.reg r ||| zextConst k)))

/-- `xor3 rd rs rt` (R159). -/
def execXor3 (d r t : Reg) (s : State) : Host.Outcome State Fault Refusal :=
  .next (s.writeAlu d (logicFlags s.cfg s.flags (s.reg r ^^^ s.reg t)))

/-- `xor3i rd rs K` (R160). -/
def execXor3i (d r : Reg) (k : Const) (s : State) : Host.Outcome State Fault Refusal :=
  .next (s.writeAlu d (logicFlags s.cfg s.flags (s.reg r ^^^ zextConst k)))

end Sys2Proof.Machine
end

