-- ==== Sys2Proof/Machine/MemCtr.lean ====
section
/-! DEFINITION. Memory access and counters (spec/44_memory_counters.md). An access takes place at the counter it names,
which then advances by the bits moved; with `pc` it starts at `a` (R190, R199). No flag is written. -/

namespace Sys2Proof.Machine

/-- `readze ctr size rd` (R191); with `sp` it is the assembler's `pop` (R198). -/
def execReadze (k : Ctr) (z : Size) (d : Reg) (s : State) : Host.Outcome State Fault Refusal :=
  match s.readThrough k (sizeBits z) with
  | .ok (v, t) => .next (t.setReg d (v.setWidth 64))
  | .error f => raise f

/-- `readse ctr size rd` (R192). -/
def execReadse (k : Ctr) (z : Size) (d : Reg) (s : State) : Host.Outcome State Fault Refusal :=
  match s.readThrough k (sizeBits z) with
  | .ok (v, t) => .next (t.setReg d (v.signExtend 64))
  | .error f => raise f

/-- `write ctr size rs`: the low `size` bits of the register (R193). -/
def execWrite (k : Ctr) (z : Size) (r : Reg) (s : State) : Host.Outcome State Fault Refusal :=
  finish (s.writeThrough k ((s.reg r).setWidth (sizeBits z)))

/-- `setctr ctr rs` (R194); with `pc` it is an absolute indirect jump. -/
def execSetctr (k : Ctr) (r : Reg) (s : State) : Host.Outcome State Fault Refusal :=
  .next (s.setCtr k (s.reg r))

/-- `getctr ctr rd` (R195); with `pc` it reads `a` (D15, log 21). -/
def execGetctr (k : Ctr) (d : Reg) (s : State) : Host.Outcome State Fault Refusal :=
  .next (s.setReg d (s.ctr k))

/-- `push rs` and, under `PUSH_FORM = prose`, `push size rs`: write the low `n` bits below `sp`, which then points at
them (R196, R197; 90_conflicts.md C3, C10). -/
def execPush (z : Option Size) (r : Reg) (s : State) : Host.Outcome State Fault Refusal :=
  match s.memWrite (pushAddr s z) ((s.reg r).setWidth (pushBits z)) with
  | .ok t => .next (t.setCtr .sp (pushAddr s z))
  | .error f => raise f

end Sys2Proof.Machine
end

