-- ==== Sys2Proof/Machine/MoveShift.lean ====
section
/-! DEFINITION. Moves and shifts (spec/42_move_shift.md). Moves write no flag; shifts write `z`, `c`, `n` (R170). -/

namespace Sys2Proof.Machine

/-- `let rd rs` (R171). -/
def execLet (d r : Reg) (s : State) : Host.Outcome State Fault Refusal :=
  .next (s.setReg d (s.reg r))

/-- `leti rd K`, sign-extended (R172). -/
def execLeti (d : Reg) (k : Const) (s : State) : Host.Outcome State Fault Refusal :=
  .next (s.setReg d (sextConst k))

/-- `shift dir rd H`: logical, in place (R173). -/
def execShift (x : Dir) (d : Reg) (h : ShiftVal) (s : State) : Host.Outcome State Fault Refusal :=
  match x with
  | .left => .next (s.writeAlu d (shiftLeft s.cfg s.flags (s.reg d) (shiftAmount h)))
  | .right => .next (s.writeAlu d (shiftRight s.cfg s.flags (s.reg d) (shiftAmount h)))

/-- `asr3 rd rs H`: arithmetic shift right (R174). -/
def execAsr3 (d r : Reg) (h : ShiftVal) (s : State) : Host.Outcome State Fault Refusal :=
  .next (s.writeAlu d (shiftArith s.cfg s.flags (s.reg r) (shiftAmount h)))

end Sys2Proof.Machine
end

