-- ==== Sys2Proof/Machine/Reserved.lean ====
section
/-! DEFINITION. The three reserved code words (spec/30_encoding.md R98): fetching one raises `ReservedOpcode` with the
7 opcode bits, and nothing further executes (60_exceptions.md R212; D8, log 20). -/

namespace Sys2Proof.Machine

/-- Opcode `1111101`, reserved (R98). -/
def execReserved1111101 (_ : State) : Host.Outcome State Fault Refusal :=
  raise (.reservedOpcode 0b1111101#7)

/-- Opcode `1111110`, reserved (R98). -/
def execReserved1111110 (_ : State) : Host.Outcome State Fault Refusal :=
  raise (.reservedOpcode 0b1111110#7)

/-- Opcode `1111111`, reserved (R98). -/
def execReserved1111111 (_ : State) : Host.Outcome State Fault Refusal :=
  raise (.reservedOpcode 0b1111111#7)

end Sys2Proof.Machine
end

