-- ==== Sys2Proof/Machine/Dispatch.lean ====
section
/-! DEFINITION. Which meaning each instruction has: one arm for each constructor of `Instr`. -/

namespace Sys2Proof.Machine

-- The meaning of an instruction whose bits have all been read, so that pc holds a (R11).
def exec (i : Instr) (s : State) : Host.Outcome State Fault Refusal :=
  match i with
  | .add2 d r => Sys2Proof.Machine.execAdd2 d r s
  | .add2i d k => Sys2Proof.Machine.execAdd2i d k s
  | .sub2 d r => Sys2Proof.Machine.execSub2 d r s
  | .sub2i d k => Sys2Proof.Machine.execSub2i d k s
  | .cmp d r => Sys2Proof.Machine.execCmp d r s
  | .cmpi d k => Sys2Proof.Machine.execCmpi d k s
  | .letr d r => Sys2Proof.Machine.execLet d r s
  | .leti d k => Sys2Proof.Machine.execLeti d k s
  | .shift x d h => Sys2Proof.Machine.execShift x d h s
  | .readze c z d => Sys2Proof.Machine.execReadze c z d s
  | .readse c z d => Sys2Proof.Machine.execReadse c z d s
  | .jump a => Sys2Proof.Machine.execJump a s
  | .jumpif cc a => Sys2Proof.Machine.execJumpif cc a s
  | .or2 d r => Sys2Proof.Machine.execOr2 d r s
  | .or2i d k => Sys2Proof.Machine.execOr2i d k s
  | .and2 d r => Sys2Proof.Machine.execAnd2 d r s
  | .and2i d k => Sys2Proof.Machine.execAnd2i d k s
  | .write c z r => Sys2Proof.Machine.execWrite c z r s
  | .call a => Sys2Proof.Machine.execCall a s
  | .setctr c r => Sys2Proof.Machine.execSetctr c r s
  | .getctr c d => Sys2Proof.Machine.execGetctr c d s
  | .push z r => Sys2Proof.Machine.execPush z r s
  | .ret => Sys2Proof.Machine.execReturn s
  | .add3 d r t => Sys2Proof.Machine.execAdd3 d r t s
  | .add3i d r k => Sys2Proof.Machine.execAdd3i d r k s
  | .sub3 d r t => Sys2Proof.Machine.execSub3 d r t s
  | .sub3i d r k => Sys2Proof.Machine.execSub3i d r k s
  | .and3 d r t => Sys2Proof.Machine.execAnd3 d r t s
  | .and3i d r k => Sys2Proof.Machine.execAnd3i d r k s
  | .or3 d r t => Sys2Proof.Machine.execOr3 d r t s
  | .or3i d r k => Sys2Proof.Machine.execOr3i d r k s
  | .xor3 d r t => Sys2Proof.Machine.execXor3 d r t s
  | .xor3i d r k => Sys2Proof.Machine.execXor3i d r k s
  | .asr3 d r h => Sys2Proof.Machine.execAsr3 d r h s
  | .reserved1111101 => Sys2Proof.Machine.execReserved1111101 s
  | .reserved1111110 => Sys2Proof.Machine.execReserved1111110 s
  | .reserved1111111 => Sys2Proof.Machine.execReserved1111111 s

end Sys2Proof.Machine
end

