-- ==== Sys2Proof/Machine/Fetch.lean ====
section
/-! DEFINITION. Fetching an instruction (spec/20_memory.md R56, R62, R65; 30_encoding.md R82) and loading a program
(70_reset_and_hazards.md R232). -/

namespace Sys2Proof.Machine

/-- Read with `p` at `pc`: each field is `Fetch(n)`, that is `MemRead(pc, n)` and then `pc <- pc + n` modulo `2^64` (R9).
The answer, or the fault of the first field that cannot be read, and the machine as the reading left it: its `pc` is past
the fields read, which is `a` after the last (R24, R180, R211). Field by field, and no bit further than the field being
read (R56; log 8). -/
def fetchWith {α : Type} : BitParser α → State → Except Fault α × State
  | .done x, s => (.ok x, s)
  | .take n k, s =>
    match s.readThrough .pc n with
    | .ok (v, t) => fetchWith (k v) t
    | .error f => (.error f, s)

/-- The instruction at `pc`, or the fault of reading it, and the machine after that. -/
def State.fetch (s : State) : Except Fault Instr × State := fetchWith (parseInstr s.cfg.pushForm) s

/-- The launch state (R232): the image from bit 0, `pc = 0`, running; every register, flag, data counter and memory
bit that the spec leaves unspecified is whatever `any` has there (R231). The parameters of the machine stay, and the
device log, which is the platform's. -/
def State.launch (image : List Bool) (any : State) : State :=
  State.loadBits { any with pc := 0, status := .running } 0 image

/-- `s` with the bits `l` of an instruction stored where the next fetch reads, on a running machine. -/
def State.withNextInstr (s : State) (l : List Bool) : State :=
  State.loadBits { s with status := .running } s.pc l

end Sys2Proof.Machine
end

