-- ==== Sys2Proof/Machine/Step.lean ====
section
/-! DEFINITION. One step of the machine. -/

namespace Sys2Proof.Machine

/-- One instruction: fetch it whole, leaving `pc` at `a`, then run its meaning (spec/00_scope.md R11, 20_memory.md
R62). In the faulted state the machine has no step (60_exceptions.md R211). -/
def step (s : State) : Host.Outcome State Fault Refusal :=
  match s.status with
  | .faulted f => raise f
  | .running =>
    match s.fetch with
    | (.ok i, t) => exec i t
    | (.error f, _) => raise f

/-- `s` with the instruction of a table word (Decode.lean, `tableBits`) where `step` fetches next. Nothing else
changes but the fault status, which a fetch needs to be `running` (log 10). -/
def State.withFetchWord (s : State) (nbits w : Nat) : State := s.withNextInstr (tableBits nbits w)

end Sys2Proof.Machine
end

