-- ==== Sys2Proof/Machine/Assembler.lean ====
section
/-! DEFINITION. The assembler (spec/30_encoding.md R102 to R112): from source text to the bits of the image. It is a
function of its own; `step` does not use it. What the spec leaves unsaid about it (N18) is log 18. -/

namespace Sys2Proof.Machine

/-! ## How a written value is sized (R111): the shortest form whose decoded value equals it modulo `2^64` -/

/-- A constant of a `z` instruction. A written number outside 64 bits takes the shortest form equal to it modulo `2^64` too,
as R111's rule says, so that `2^64 + 5` and `-(2^64 - 5)` have the 8-bit form of 5, and not the 64-bit form that R111's
list has for what is outside its ranges: DESIGN CHOICE, log 18. -/
def sizeConstZ (v : Int) : Const :=
  let u : Word := BitVec.ofInt 64 v
  if u.toNat < 2 then .k1 (u.setWidth 1)
  else if u.toNat < 2 ^ 8 then .k8 (u.setWidth 8)
  else if u.toNat < 2 ^ 32 then .k32 (u.setWidth 32)
  else .k64 u

/-- A constant of an `s` instruction. A value of `2^63` or more, or below `-2^63`, takes the shortest form equal to it modulo
`2^64`, as R111's rule says, so that `leti r0 0xFFFFFFFFFFFFFFFF` has the 8-bit form of -1, and not the 64-bit form that
R111's list has for what is outside its ranges: DESIGN CHOICE, log 18. -/
def sizeConstS (v : Int) : Const :=
  let u : Word := BitVec.ofInt 64 v
  if 0 ≤ u.toInt ∧ u.toInt ≤ 1 then .k1 (u.setWidth 1)
  else if -2 ^ 7 ≤ u.toInt ∧ u.toInt < 2 ^ 7 then .k8 (u.setWidth 8)
  else if -2 ^ 31 ≤ u.toInt ∧ u.toInt < 2 ^ 31 then .k32 (u.setWidth 32)
  else .k64 u

/-- The four forms of an `addr` operand (R88). -/
inductive AddrWidth where
  | w8 | w16 | w32 | w64
deriving DecidableEq, Repr

/-- The `addr` operand of that form that holds `u`, if `fitsAddr` says so. -/
def addrOfWidth (w : AddrWidth) (u : Word) : Addr :=
  match w with
  | .w8 => .a8 (u.setWidth 8)
  | .w16 => .a16 (u.setWidth 16)
  | .w32 => .a32 (u.setWidth 32)
  | .w64 => .a64 u

/-- The form decodes to `u`. -/
def fitsAddr (w : AddrWidth) (u : Word) : Bool := addrValue (addrOfWidth w u) == u

/-- The shortest form that decodes to `u`. -/
def shortestWidth (u : Word) : AddrWidth :=
  if fitsAddr .w8 u then .w8 else if fitsAddr .w16 u then .w16 else if fitsAddr .w32 u then .w32 else .w64

/-- An address or displacement written as a number: the shortest form equal to it modulo `2^64`, also for a value of `2^63`
or more or below `-2^63`, which R111's list would give 64 bits: DESIGN CHOICE, log 18. -/
def sizeAddr (v : Int) : Addr := addrOfWidth (shortestWidth (BitVec.ofInt 64 v)) (BitVec.ofInt 64 v)

/-- A shift amount; 64 or more cannot be encoded (R89). -/
def sizeShift (k : Nat) : Option ShiftVal :=
  if k = 1 then some .one else if k < 64 then some (.amount (BitVec.ofNat 6 k)) else none

/-! ## Assembling items -/

/-- A label's name. -/
abbrev Name := List Char

/-- Why the assembler rejects a text. -/
inductive AsmError where
  | unknownMnemonic (line : Nat)
  | badOperand (line : Nat)
  /-- the value of `.const` is outside `0 .. 2^n - 1` (R107; 93_implementation_defined.md U8) -/
  | constDoesNotFit (line : Nat)
  | undefinedLabel (name : Name)
  /-- a label defined twice, on which the spec is silent (N18); that it is rejected is a DESIGN CHOICE, log 18 -/
  | duplicateLabel (name : Name)
  /-- a label's value does not fit the width settled on; `settleWidths` runs often enough for this not to occur -/
  | unsettledLabel (name : Name)
deriving DecidableEq, Repr

/-- An instruction whose `addr` operand is a label. -/
inductive LabelUse where
  | jump
  | jumpif (cc : Cond)
  | call
deriving DecidableEq, Repr

/-- One thing the assembler places: a label (R106), a `.const n xxxx` (R107), an instruction, or an instruction that
names a label (R106). -/
inductive AsmItem where
  | label (name : Name)
  | data (n : Nat) (v : Nat)
  | instr (i : Instr)
  | toLabel (u : LabelUse) (name : Name)
deriving DecidableEq, Repr

/-- The instruction of a label use with the given `addr` operand. -/
def LabelUse.withAddr (u : LabelUse) (x : Addr) : Instr :=
  match u with
  | .jump => .jump x
  | .jumpif cc => .jumpif cc x
  | .call => .call x

/-- The bits a placed item takes when its `addr` operand has width `w`. -/
def AsmItem.length (it : AsmItem) (w : AddrWidth) : Nat :=
  match it with
  | .label _ => 0
  | .data n _ => n
  | .instr i => (encode i).length
  | .toLabel u _ => (encode (u.withAddr (addrOfWidth w 0))).length

/-- The value a label assembles to (R106): the displacement `label - a` for `jump` and `jumpif`, the absolute address
for `call`; `after` is `a`. -/
def LabelUse.value (u : LabelUse) (target after : Nat) : Word :=
  match u with
  | .jump | .jumpif _ => BitVec.ofNat 64 target - BitVec.ofNat 64 after
  | .call => BitVec.ofNat 64 target

/-- The addresses of the labels, the first item at address `p` (R106, R112). -/
def labelAddrs : Nat → List (AsmItem × AddrWidth) → List (Name × Nat)
  | _, [] => []
  | p, (.label l, _) :: r => (l, p) :: labelAddrs p r
  | p, (.data n v, w) :: r => labelAddrs (p + (AsmItem.data n v).length w) r
  | p, (.instr i, w) :: r => labelAddrs (p + (AsmItem.instr i).length w) r
  | p, (.toLabel u l, w) :: r => labelAddrs (p + (AsmItem.toLabel u l).length w) r

/-- Widen every label use whose value does not fit the width it has; a width never shrinks, so that repeating this
settles. -/
def growWidths (env : List (Name × Nat)) : Nat → List (AsmItem × AddrWidth) → List (AsmItem × AddrWidth)
  | _, [] => []
  | p, (it, w) :: r =>
    let after := p + it.length w
    let w' := match it with
      | .toLabel u l =>
        match env.lookup l with
        | some t => if fitsAddr w (u.value t after) then w else shortestWidth (u.value t after)
        | none => w
      | _ => w
    (it, w') :: growWidths env after r

/-- Repeat `growWidths` until nothing changes, at most `fuel` times. -/
def settleWidths : Nat → List (AsmItem × AddrWidth) → List (AsmItem × AddrWidth)
  | 0, l => l
  | fuel + 1, l =>
    let l' := growWidths (labelAddrs 0 l) 0 l
    if l' = l then l else settleWidths fuel l'

/-- The bits of one item placed at `p`, a label use in the form of width `w`. -/
def emitItem (env : List (Name × Nat)) (p : Nat) (it : AsmItem) (w : AddrWidth) : Except AsmError (List Bool) :=
  match it with
  | .label _ => .ok []
  | .data n v => .ok (toBits (BitVec.ofNat n v))
  | .instr i => .ok (encode i)
  | .toLabel u l =>
    match env.lookup l with
    | some t =>
      let x := u.value t (p + it.length w)
      if fitsAddr w x then .ok (encode (u.withAddr (addrOfWidth w x))) else .error (.unsettledLabel l)
    | none => .error (.undefinedLabel l)

/-- The bits of the items, one after another with no padding (R80, R112). -/
def emitItems (env : List (Name × Nat)) : Nat → List (AsmItem × AddrWidth) → Except AsmError (List Bool)
  | _, [] => .ok []
  | p, (it, w) :: r => do
    let h ← emitItem env p it w
    let t ← emitItems env (p + it.length w) r
    .ok (h ++ t)

/-- The first name that stands in the list twice. -/
def firstDuplicate : List (Name × Nat) → Option Name
  | [] => none
  | (l, _) :: r => if (r.lookup l).isSome then some l else firstDuplicate r

/-- The image of a list of items, from bit address 0 (R112). Every label use starts in its shortest form and is
widened as often as needed; each of `n` uses widens at most three times. A text that defines a label twice is rejected
with `duplicateLabel`: DESIGN CHOICE, log 18. -/
def assembleItems (items : List AsmItem) : Except AsmError (List Bool) :=
  let placed := settleWidths (3 * items.length + 1) (items.map fun it => (it, AddrWidth.w8))
  let env := labelAddrs 0 placed
  match firstDuplicate env with
  | some l => .error (.duplicateLabel l)
  | none => emitItems env 0 placed

/-! ## Reading the text (R102, R103, R105, R107 to R110) -/

/-- Spaces separate the parts of a line (R102). That a tab and a carriage return do so too is a DESIGN CHOICE, log 18. -/
def isBlank (c : Char) : Bool := c == ' ' || c == '\t' || c == '\r'

/-- Cut a text at every character `p` holds of. -/
def cutAt (p : Char → Bool) : List Char → List (List Char)
  | [] => [[]]
  | c :: r =>
    match cutAt p r with
    | [] => [[c]]
    | h :: t => if p c then [] :: h :: t else (c :: h) :: t

/-- The parts of a line, its comment left out (R102, R109). -/
def lineTokens (l : List Char) : List (List Char) :=
  (cutAt isBlank (l.takeWhile (· != ';'))).filter fun t => !t.isEmpty

/-- A digit in base `base`, 10 or 16. -/
def digit (base : Nat) (c : Char) : Option Nat :=
  let k :=
    if '0' ≤ c ∧ c ≤ '9' then c.toNat - '0'.toNat
    else if 'a' ≤ c ∧ c ≤ 'f' then c.toNat - 'a'.toNat + 10
    else if 'A' ≤ c ∧ c ≤ 'F' then c.toNat - 'A'.toNat + 10
    else base
  if k < base then some k else none

/-- The number whose digits follow, after the value `acc` of those read. -/
def digits (base : Nat) : Nat → List Char → Option Nat
  | acc, [] => some acc
  | acc, c :: r => (digit base c).bind fun k => digits base (base * acc + k) r

/-- A number without a sign: decimal, or hexadecimal after `0x` (R103, R108), with hexadecimal digits in either case (DESIGN
CHOICE, log 18). -/
def readNat : List Char → Option Nat
  | [] => none
  | '0' :: 'x' :: c :: r => digits 16 0 (c :: r)
  | c :: r => digits 10 0 (c :: r)

/-- A number: one without a sign, or a negative decimal (R103). -/
def readInt : List Char → Option Int
  | '-' :: c :: r => (digits 10 0 (c :: r)).map fun k => -(k : Int)
  | t => (readNat t).map fun k => (k : Int)

/-- Look a spelling up in a table. -/
def spelled {α : Type} (table : List (String × α)) (t : List Char) : Option α :=
  (table.find? fun e => e.1.toList == t).map (·.2)

/-- `reg` (R103). -/
def readReg : List Char → Option Reg :=
  spelled [("r0", .r0), ("r1", .r1), ("r2", .r2), ("r3", .r3), ("r4", .r4), ("r5", .r5), ("r6", .r6), ("r7", .r7)]

/-- `ctr` (R103). -/
def readCtr : List Char → Option Ctr := spelled [("pc", .pc), ("sp", .sp), ("a0", .a0), ("a1", .a1)]

/-- `dir` (R103). -/
def readDir : List Char → Option Dir := spelled [("left", .left), ("right", .right)]

/-- `cond`, the twelve mnemonics of Table 3 (R91, R103). -/
def readCond : List Char → Option Cond :=
  spelled [("eq", .eq), ("z", .eq), ("neq", .neq), ("nz", .neq), ("sgt", .sgt), ("slt", .slt), ("gt", .gt),
    ("ge", .ge), ("nc", .ge), ("lt", .lt), ("c", .lt), ("v", .v)]

/-- `size`: the number of bits in decimal (R103). -/
def readSize : List Char → Option Size :=
  spelled [("1", .b1), ("4", .b4), ("8", .b8), ("16", .b16), ("32", .b32), ("64", .b64)]

/-- A constant, sized under extension `z` or `s` (R86, R111). A label as the constant of `leti` or of another instruction, on
which the spec is silent (N18), is not taken: DESIGN CHOICE, log 18. -/
def readConst (signed : Bool) (t : List Char) : Option Const :=
  (readInt t).map fun v => if signed then sizeConstS v else sizeConstZ v

/-- `shiftval`: a decimal integer 0..63 (R103). That a hexadecimal spelling with `0x` is taken too is a DESIGN CHOICE,
log 18. -/
def readShift (t : List Char) : Option ShiftVal := (readNat t).bind sizeShift

/-- A label's name is what is neither a number nor the start of one: it does not begin with a digit or `-` (DESIGN CHOICE,
log 18). -/
def isLabelName : List Char → Bool
  | [] => false
  | c :: _ => (digit 10 c).isNone && c != '-'

/-- An `addr` operand: a signed decimal integer, or a label (R103, R106). That a hexadecimal spelling with `0x` is taken too
is a DESIGN CHOICE, log 18. -/
def readTarget (u : LabelUse) (t : List Char) : Option AsmItem :=
  match readInt t with
  | some v => some (.instr (u.withAddr (sizeAddr v)))
  | none => if isLabelName t then some (.toLabel u t) else none

/-- How the operands of a mnemonic are read. -/
inductive AsmForm where
  /-- `reg reg`; with a constant last, the `i` instruction (R105) -/
  | rr (mk : Reg → Reg → Instr) (imm : Option (Reg → Const → Instr)) (signed : Bool)
  | rc (mk : Reg → Const → Instr) (signed : Bool)
  /-- `reg reg reg`; with a constant last, the `i` instruction (R105) -/
  | rrr (mk : Reg → Reg → Reg → Instr) (imm : Reg → Reg → Const → Instr)
  | rrc (mk : Reg → Reg → Const → Instr)
  | rrs | sh | jump | jumpif | call | ret | push
  | mem (mk : Ctr → Size → Reg → Instr)
  | cr (mk : Ctr → Reg → Instr)
  /-- `pop size reg`, the shortcut for `readze sp size reg` (R110, R198) -/
  | pop

/-- The mnemonics: those of Table 1 (R96, R102) and `pop` (R110). -/
def asmForms : List (String × AsmForm) :=
  [("add2", .rr .add2 (some .add2i) false), ("add2i", .rc .add2i false),
   ("sub2", .rr .sub2 (some .sub2i) false), ("sub2i", .rc .sub2i false),
   ("cmp", .rr .cmp (some .cmpi) true), ("cmpi", .rc .cmpi true),
   ("let", .rr .letr (some .leti) true), ("leti", .rc .leti true),
   ("shift", .sh), ("readze", .mem .readze), ("readse", .mem .readse), ("jump", .jump), ("jumpif", .jumpif)] ++
  [("or2", .rr .or2 (some .or2i) false), ("or2i", .rc .or2i false),
   ("and2", .rr .and2 (some .and2i) false), ("and2i", .rc .and2i false),
   ("write", .mem .write), ("call", .call), ("setctr", .cr .setctr), ("getctr", .cr .getctr),
   ("push", .push), ("pop", .pop), ("return", .ret)] ++
  [("add3", .rrr .add3 .add3i), ("add3i", .rrc .add3i), ("sub3", .rrr .sub3 .sub3i), ("sub3i", .rrc .sub3i),
   ("and3", .rrr .and3 .and3i), ("and3i", .rrc .and3i), ("or3", .rrr .or3 .or3i), ("or3i", .rrc .or3i),
   ("xor3", .rrr .xor3 .xor3i), ("xor3i", .rrc .xor3i), ("asr3", .rrs)]

/-- An instruction from the operands after its mnemonic, in Table 1's order (R103, R104). -/
def readOperands (f : PushForm) (form : AsmForm) (ops : List (List Char)) : Option AsmItem :=
  match form, ops with
  | .rr mk imm signed, [d, x] => do
    let d ← readReg d
    match readReg x with
    | some s => some (.instr (mk d s))
    | none => do
      let mki ← imm
      let k ← readConst signed x
      some (.instr (mki d k))
  | .rc mk signed, [d, x] => do some (.instr (mk (← readReg d) (← readConst signed x)))
  | .rrr mk imm, [d, s, x] => do
    let d ← readReg d
    let s ← readReg s
    match readReg x with
    | some t => some (.instr (mk d s t))
    | none => (readConst false x).map fun k => .instr (imm d s k)
  | .rrc mk, [d, s, x] => do some (.instr (mk (← readReg d) (← readReg s) (← readConst false x)))
  | .rrs, [d, s, x] => do some (.instr (.asr3 (← readReg d) (← readReg s) (← readShift x)))
  | .sh, [x, d, h] => do some (.instr (.shift (← readDir x) (← readReg d) (← readShift h)))
  | .mem mk, [c, z, r] => do some (.instr (mk (← readCtr c) (← readSize z) (← readReg r)))
  | .cr mk, [c, r] => do some (.instr (mk (← readCtr c) (← readReg r)))
  | .jump, [x] => readTarget .jump x
  | .jumpif, [cc, x] => do readTarget (.jumpif (← readCond cc)) x
  | .call, [x] => readTarget .call x
  | .ret, [] => some (.instr .ret)
  | .push, [r] => if f = .table1 then (readReg r).map fun r => .instr (.push none r) else none
  | .push, [z, r] =>
    if f = .prose then do some (.instr (.push (some (← readSize z)) (← readReg r))) else none
  | .pop, [z, r] => do some (.instr (.readze .sp (← readSize z) (← readReg r)))
  | _, _ => none

/-- The items of one line: labels, then at most one `.const` or instruction (R102, R106, R107; log 18). The value of `.const`
is a number; a label there, on which the spec is silent (N18), is rejected with `badOperand`: DESIGN CHOICE, log 18. -/
def readLine (f : PushForm) (line : Nat) : List (List Char) → Except AsmError (List AsmItem)
  | [] => .ok []
  | t :: ops =>
    if t.getLast? = some ':' then do
      let r ← readLine f line ops
      if isLabelName t.dropLast then .ok (.label t.dropLast :: r) else .error (.badOperand line)
    else if t = ".const".toList then
      match ops with
      | [n, v] =>
        match readNat n, readInt v with
        | some n, some v =>
          if n = 0 then .error (.badOperand line)
          else if 0 ≤ v ∧ v < 2 ^ n then .ok [.data n v.toNat]
          else .error (.constDoesNotFit line)
        | _, _ => .error (.badOperand line)
      | _ => .error (.badOperand line)
    else
      match spelled asmForms t with
      | none => .error (.unknownMnemonic line)
      | some form =>
        match readOperands f form ops with
        | some it => .ok [it]
        | none => .error (.badOperand line)

/-- The items of a text, lines numbered from `line` on. -/
def readLines (f : PushForm) : Nat → List (List Char) → Except AsmError (List AsmItem)
  | _, [] => .ok []
  | line, l :: r => do
    let h ← readLine f line (lineTokens l)
    let t ← readLines f (line + 1) r
    .ok (h ++ t)

/-- The assembler: the image of a source text (R102 to R112). -/
def assemble (f : PushForm) (text : String) : Except AsmError (List Bool) :=
  match readLines f 1 (cutAt (· == '\n') text.toList) with
  | .ok items => assembleItems items
  | .error e => .error e

end Sys2Proof.Machine
end

