-- ==== Sys2Proof/Safety.lean ====
section
/-! DEFINITION. What claims about this machine are made of: the states it can be in, the end of a run, a run without
a fault, and the machine with its faulted state. -/

namespace Sys2Proof.Machine

/-- The states a machine can be in: its parameters meet their constraint (spec/00_scope.md R6), its memory is in
canonical form and has no bit outside `0 .. MEMBITS-1` (20_memory.md R50). -/
abbrev State.Inv (s : State) : Prop :=
  s.cfg.Valid ∧ Memory.WF s.mem ∧ ∀ c ∈ s.mem, c.1 < s.cfg.memBits

/-- The run has ended normally: the machine is running and `pc` holds the address of a `jump`, in any form, whose
target is its own first bit (70_reset_and_hazards.md R239; D21, log 19), and which is read from no device. -/
def State.ended (s : State) : Bool :=
  match s.status, s.fetch with
  | .running, (.ok (.jump x), t) => t.pc + addrValue x == s.pc && t.io == s.io
  | _, _ => false

/-- `n` steps from `s` without a fault lead to `t` (60_exceptions.md R211: "no fault" is for a claim to prove). -/
def runsTo : Nat → State → State → Prop
  | 0, s, t => s = t
  | n + 1, s, t => ∃ u, step s = .next u ∧ runsTo n u t

/-- The machine of 60_exceptions.md R211, which has its faulted state as a state and stays in it: where a step raises a
fault, that state is entered, with `pc` past the fields fetched: at `a` for a fault of a data access (R190), 7 bits on for
a reserved opcode (R98), at the field that could not be read for a fault of the fetch (log 6). -/
def State.advanceMachine (s : State) : State :=
  match s.status with
  | .faulted _ => s
  | .running =>
    match step s with
    | .next t => t
    | .fault f => s.fetch.2.enterFault f
    | .refused _ => s

end Sys2Proof.Machine
end

