-- ==== Sys2Proof/Certificates/Slice0/Obligations.lean ====
section
/-! DEFINITION. The statements for the provers, from the numbered rules of spec/. The predicates they are made of come
first. Each statement says which rule it formalises; OBLIGATIONS.json lists them. -/

namespace Sys2Proof.Claims

open Sys2Proof Sys2Proof.Machine

/-- `t` differs from `s` at most in the registers of `rs`, the counters of `ks` and the memory bits of `ms`; its device log
is `io`; fault status and parameters are the same. Flags are spoken of apart. Cells, log and parameters are all that a
read of memory depends on (`State.bit`): where there is no device the read of a bit is its cell, and where the log is the
same it answers what it did (log 11). -/
def Frame (s t : State) (rs : Reg → Prop) (ks : Ctr → Prop) (ms : Nat → Prop) (io : List DeviceAccess) : Prop :=
  (∀ r, ¬ rs r → t.reg r = s.reg r) ∧ (∀ k, ¬ ks k → t.ctr k = s.ctr k) ∧ (∀ a, ¬ ms a → t.cell a = s.cell a) ∧
  t.io = io ∧ t.status = s.status ∧ t.cfg = s.cfg

/-- No register, no counter, no memory bit. -/
def nothing {α : Type} (_ : α) : Prop := False

/-- The bit addresses of an `n`-bit access at `addr` (R52, R53). -/
def bitsAt (addr : Word) (n : Nat) (a : Nat) : Prop := addr.toNat ≤ a ∧ a < addr.toNat + n

/-- The bits `l` decode to `i` whatever follows them, on every machine that has `i`. -/
def Encodes (i : Instr) (l : List Bool) : Prop :=
  ∀ f rest, i.wellFormed f = true → decode f (l ++ rest) = .ok (i, rest)

/-- Flags `z` and `n` of a result (R27). -/
def ZN (f : Flags) (r : Word) : Prop := (f.z = true ↔ r.toNat = 0) ∧ (f.n = true ↔ r.toInt < 0)

/-- The integer is no 64-bit two's-complement value (R29). -/
def SignedOverflow (x : Int) : Prop := x < -2 ^ 63 ∨ 2 ^ 63 ≤ x

/-- The flags of an addition (R27, R29, R30(a)). -/
def AddSets (f : Flags) (x y : Word) : Prop :=
  ZN f (x + y) ∧ (f.c = true ↔ 2 ^ 64 ≤ x.toNat + y.toNat) ∧ (f.v = true ↔ SignedOverflow (x.toInt + y.toInt))

/-- The flags of a subtraction or comparison (R27, R28, R29). -/
def SubSets (f : Flags) (x y : Word) : Prop :=
  ZN f (x - y) ∧ (f.c = true ↔ x.toNat < y.toNat) ∧ (f.v = true ↔ SignedOverflow (x.toInt - y.toInt))

/-- `i` writes the sum of `x` and `y` to `d` and sets the flags from it, and changes nothing else. -/
def Adds (i : Instr) (s : State) (d : Reg) (x y : Word) : Prop :=
  ∃ t, exec i s = .next t ∧ t.reg d = x + y ∧ AddSets t.flags x y ∧ Frame s t (· = d) nothing nothing s.io

/-- `i` writes the difference of `x` and `y` to `d` and sets the flags from it, and changes nothing else. -/
def Subtracts (i : Instr) (s : State) (d : Reg) (x y : Word) : Prop :=
  ∃ t, exec i s = .next t ∧ t.reg d = x - y ∧ SubSets t.flags x y ∧ Frame s t (· = d) nothing nothing s.io

/-- `i` sets the flags from the difference of `x` and `y`, and changes nothing else. -/
def Compares (i : Instr) (s : State) (x y : Word) : Prop :=
  ∃ t, exec i s = .next t ∧ SubSets t.flags x y ∧ Frame s t nothing nothing nothing s.io

/-- `i` combines `x` and `y` bit by bit with `op` into `d`, sets `z`, `n` from the result and `c` to `c_logic`, keeps
`v`, and changes nothing else (R150). -/
def Combines (i : Instr) (op : Bool → Bool → Bool) (s : State) (d : Reg) (x y : Word) : Prop :=
  ∃ t, exec i s = .next t ∧ (∀ j, j < 64 → (t.reg d).getLsbD j = op (x.getLsbD j) (y.getLsbD j)) ∧
    ZN t.flags (t.reg d) ∧ t.flags.c = s.cfg.cLogic ∧ t.flags.v = s.flags.v ∧ Frame s t (· = d) nothing nothing s.io

/-- `c` after a shift by `k` of which `out` is the last bit shifted out (R30(c)). -/
def ShiftSetsC (s t : State) (k : Nat) (out : Bool) : Prop :=
  (1 ≤ k → t.flags.c = out) ∧
  (k = 0 → (∀ b, s.cfg.cShift0 = .const b → t.flags.c = b) ∧ (s.cfg.cShift0 = .keep → t.flags.c = s.flags.c))

/-- What a shift by `k` sets besides its result: `z` and `n` from the result, `c`, and `v` kept; the frame (R170). -/
def ShiftEffect (s t : State) (d : Reg) (k : Nat) (out : Bool) : Prop :=
  ZN t.flags (t.reg d) ∧ ShiftSetsC s t k out ∧ t.flags.v = s.flags.v ∧ Frame s t (· = d) nothing nothing s.io

/-- The "implementation" column of Table 3 (R91, R182). -/
def TableThree (f : Flags) : Cond → Prop
  | .eq => f.z = true
  | .neq => f.z = false
  | .sgt => f.z = false ∧ f.n = f.v
  | .slt => f.n ≠ f.v
  | .gt => f.z = false ∧ f.c = false
  | .ge => f.c = false
  | .lt => f.c = true
  | .v => f.v = true

/-- `t` is `s` with `pc` at `w`: every register, flag, other counter and memory bit as before. -/
def GoesTo (s t : State) (w : Word) : Prop :=
  t.pc = w ∧ t.flags = s.flags ∧ Frame s t nothing (· = .pc) nothing s.io

/-- The word `w` holds the `n` bits that a read at `addr` answers, the bit at the lowest address most significant (R52). -/
def HoldsBits (s : State) (addr : Word) (n : Nat) (w : Word) : Prop :=
  ∀ j, j < n → w.getLsbD (n - 1 - j) = s.bit (addr.toNat + j)

/-- The memory of `t` holds at `addr` the low `n` bits of `w`, most significant first (R53). -/
def StoresBits (t : State) (addr : Word) (n : Nat) (w : Word) : Prop :=
  ∀ j, j < n → t.cell (addr.toNat + j) = w.getLsbD (n - 1 - j)

/-- The fault of an access at `addr` (R52, R53): the first address out of range. -/
def OutOfRange (s : State) (addr : Word) : Fault := .memFault (max addr.toNat s.cfg.memBits)

/-- The instructions that write flags `z`, `c`, `v` and `n` (R25). -/
def writesAllFlags : Instr → Bool
  | .add2 .. | .add2i .. | .sub2 .. | .sub2i .. | .cmp .. | .cmpi .. | .add3 .. | .add3i .. | .sub3 .. | .sub3i .. => true
  | _ => false

/-- The instructions that write flags `z`, `c` and `n` but not `v` (R25). -/
def writesZCN : Instr → Bool
  | .shift .. | .or2 .. | .or2i .. | .and2 .. | .and2i .. | .and3 .. | .and3i .. | .or3 .. | .or3i .. | .xor3 .. | .xor3i .. | .asr3 .. => true
  | _ => false

/-- The register an instruction writes, if any (R20, R95; `call` writes `r7`, R183). -/
def destination : Instr → Option Reg
  | .add2 d _ | .add2i d _ | .sub2 d _ | .sub2i d _ | .letr d _ | .leti d _ | .shift _ d _ | .readze _ _ d
  | .readse _ _ d | .or2 d _ | .or2i d _ | .and2 d _ | .and2i d _ | .getctr _ d | .add3 d _ _ | .add3i d _ _
  | .sub3 d _ _ | .sub3i d _ _ | .and3 d _ _ | .and3i d _ _ | .or3 d _ _ | .or3i d _ _ | .xor3 d _ _
  | .xor3i d _ _ | .asr3 d _ _ => some d
  | .call _ => some .r7
  | _ => none

/-- The counter an instruction writes, if any (R20). -/
def counterWritten : Instr → Option Ctr
  | .readze k _ _ | .readse k _ _ | .write k _ _ | .setctr k _ => some k
  | .jump _ | .jumpif _ _ | .call _ | .ret => some .pc
  | .push _ _ => some .sp
  | _ => none

/-- The data access of an instruction: its address and its number of bits (R190, R196, R197). -/
def dataAccess (s : State) : Instr → Option (Word × Nat)
  | .readze k z _ | .readse k z _ | .write k z _ => some (s.ctr k, sizeBits z)
  | .push z _ => some (pushAddr s z, pushBits z)
  | _ => none

/-- The bit addresses an instruction stores to (R20, R53): those of the data access of `write` and `push`. -/
def storedAt (s : State) : Instr → Nat → Prop
  | .write k z _, a => bitsAt (s.ctr k) (sizeBits z) a
  | .push z _, a => bitsAt (pushAddr s z) (pushBits z) a
  | _, _ => False

/-- The store of an instruction: its address and the bits stored, first bit at the lowest address (R53, R193, R196, R197). -/
def storedBits (s : State) : Instr → Option (Word × List Bool)
  | .write k z r => some (s.ctr k, toBits ((s.reg r).setWidth (sizeBits z)))
  | .push z r => some (pushAddr s z, toBits ((s.reg r).setWidth (pushBits z)))
  | _ => none

/-- The memory cell at `a` after the bits `l` were stored at `addr`: the bit of `l` there, or the cell as it was. -/
def cellAfterStore (s : State) (addr : Word) (l : List Bool) (a : Nat) : Bool :=
  if addr.toNat ≤ a then (l[a - addr.toNat]?).getD (s.cell a) else s.cell a

/-- The device log after an instruction: its data access is added, with the bits read asked for or the bits written, where
that touches a device (R58; log 11). -/
def ioWritten (s : State) : Instr → List DeviceAccess
  | .readze k z _ | .readse k z _ => s.ioAfter (.read (s.ctr k).toNat (sizeBits z))
  | .write k z r => s.ioAfter (.write (s.ctr k).toNat (toBits ((s.reg r).setWidth (sizeBits z))))
  | .push z r => s.ioAfter (.write (pushAddr s z).toNat (toBits ((s.reg r).setWidth (pushBits z))))
  | _ => s.io

/-- The opcode bits of a reserved code word (R98). -/
def reservedBits : Instr → Option (BitVec 7)
  | .reserved1111101 => some 0b1111101#7
  | .reserved1111110 => some 0b1111110#7
  | .reserved1111111 => some 0b1111111#7
  | _ => none

/-- The possible lengths of an instruction's encoding (R97). -/
def lengths : Instr → List Nat
  | .add2 .. | .sub2 .. | .cmp .. | .letr .. => [10]
  | .add2i .. | .sub2i .. | .cmpi .. | .leti .. => [9, 17, 42, 74]
  | .shift .. => [9, 15]
  | .readze .. | .readse .. => [12, 13]
  | .jump .. => [13, 22, 39, 71]
  | .jumpif .. => [16, 25, 42, 74]
  | .or2 .. | .and2 .. => [12]
  | .or2i .. | .and2i .. => [11, 19, 44, 76]
  | .write .. => [13, 14]
  | .call .. => [15, 24, 41, 73]
  | .setctr .. | .getctr .. => [11]
  | .push none _ => [10]
  | .push (some _) _ => [12, 13]
  | .ret => [7]
  | .add3 .. | .sub3 .. | .and3 .. | .or3 .. | .xor3 .. => [16]
  | .add3i .. | .sub3i .. | .and3i .. | .or3i .. | .xor3i .. => [15, 23, 48, 80]
  | .asr3 .. => [14, 20]
  | .reserved1111101 | .reserved1111110 | .reserved1111111 => [7]

/-- The instruction `i` stands in memory at `pc`, all of it inside memory and none of it in a device. -/
def StandsAtPc (s : State) (i : Instr) : Prop :=
  i.wellFormed s.cfg.pushForm = true ∧ s.pc.toNat + (encode i).length ≤ s.cfg.memBits ∧
  s.cfg.touchesDevice s.pc.toNat (encode i).length = false ∧
  Memory.readBits s.mem s.pc.toNat (encode i).length = encode i

/-- `s` after its instruction `i` has been read: `pc` holds `a` (R24, R180). -/
def afterFetch (s : State) (i : Instr) : State := s.setCtr .pc (s.pc + BitVec.ofNat 64 (encode i).length)

end Sys2Proof.Claims

open Sys2Proof Sys2Proof.Machine Sys2Proof.Claims

/-! ## Arithmetic (spec/40_alu_arith.md) -/

/-- R131, R137: `add2 rd rs` and `add3 rd rs rt`, their encodings, result, flags and frame. `c` after an addition is the
spec's decision D10 (log 14); which flags mean what for instructions other than `cmp` is its decision D9 (log 13);
the roles of three registers are an inference (log 16). -/
def Obligations.AddRegistersWritesSumAndFlags : Prop :=
  ∀ (s : State) (d r t : Reg),
    Encodes (.add2 d r) (toBits 0b0000#4 ++ d.bits ++ r.bits) ∧
    Adds (.add2 d r) s d (s.reg d) (s.reg r) ∧
    Encodes (.add3 d r t) (toBits 0b1110010#7 ++ d.bits ++ r.bits ++ t.bits) ∧
    Adds (.add3 d r t) s d (s.reg r) (s.reg t)

/-- R132, R138: `add2i rd K` and `add3i rd rs K`, the constant zero-extended. `c` after an addition is the spec's
decision D10 (log 14); which flags mean what for instructions other than `cmp` is its decision D9 (log 13); the
roles of three registers are an inference (log 16). -/
def Obligations.AddConstantWritesSumAndFlags : Prop :=
  ∀ (s : State) (d r : Reg) (k : Const),
    Encodes (.add2i d k) (toBits 0b0001#4 ++ d.bits ++ k.bits) ∧
    Adds (.add2i d k) s d (s.reg d) (zextConst k) ∧
    Encodes (.add3i d r k) (toBits 0b1110011#7 ++ d.bits ++ r.bits ++ k.bits) ∧
    Adds (.add3i d r k) s d (s.reg r) (zextConst k)

/-- R133, R139: `sub2 rd rs` and `sub3 rd rs rt`. What `c`, `z` and `n` mean for instructions other than `cmp` is the
spec's decision D9 (log 13); the operand order of `sub3` is an inference (log 16). -/
def Obligations.SubRegistersWritesDifferenceAndFlags : Prop :=
  ∀ (s : State) (d r t : Reg),
    Encodes (.sub2 d r) (toBits 0b0010#4 ++ d.bits ++ r.bits) ∧
    Subtracts (.sub2 d r) s d (s.reg d) (s.reg r) ∧
    Encodes (.sub3 d r t) (toBits 0b1110100#7 ++ d.bits ++ r.bits ++ t.bits) ∧
    Subtracts (.sub3 d r t) s d (s.reg r) (s.reg t)

/-- R134, R140: `sub2i rd K` and `sub3i rd rs K`, the constant zero-extended. What `c`, `z` and `n` mean for
instructions other than `cmp` is the spec's decision D9 (log 13); the operand order of `sub3` is an inference (log
16). -/
def Obligations.SubConstantWritesDifferenceAndFlags : Prop :=
  ∀ (s : State) (d r : Reg) (k : Const),
    Encodes (.sub2i d k) (toBits 0b0011#4 ++ d.bits ++ k.bits) ∧
    Subtracts (.sub2i d k) s d (s.reg d) (zextConst k) ∧
    Encodes (.sub3i d r k) (toBits 0b1110101#7 ++ d.bits ++ r.bits ++ k.bits) ∧
    Subtracts (.sub3i d r k) s d (s.reg r) (zextConst k)

/-- R135, R136: `cmp rd rs` and `cmpi rd K` (sign-extended) write the four flags and no register. For `cmpi` that `c` is
the borrow is the spec's decision D9, and that the 1-bit form is 0 or 1 its decision D5 (logs 13 and 15). -/
def Obligations.CompareWritesFlagsOnly : Prop :=
  ∀ (s : State) (d r : Reg) (k : Const),
    Encodes (.cmp d r) (toBits 0b0100#4 ++ d.bits ++ r.bits) ∧
    Compares (.cmp d r) s (s.reg d) (s.reg r) ∧
    Encodes (.cmpi d k) (toBits 0b0101#4 ++ d.bits ++ k.bits) ∧
    Compares (.cmpi d k) s (s.reg d) (sextConst k)

/-- R143: after a comparison each of the eight conditions says exactly what Table 3's description says. The spec marks
R143 as derived from R10 and R91. -/
def Obligations.ConditionsAfterComparisonAreExact : Prop :=
  ∀ x y : Word,
    let f := (subFlags x y).2
    (condHolds f .eq = true ↔ x = y) ∧ (condHolds f .neq = true ↔ x ≠ y) ∧
    (condHolds f .sgt = true ↔ y.toInt < x.toInt) ∧ (condHolds f .slt = true ↔ x.toInt < y.toInt) ∧
    (condHolds f .gt = true ↔ y.toNat < x.toNat) ∧ (condHolds f .ge = true ↔ y.toNat ≤ x.toNat) ∧
    (condHolds f .lt = true ↔ x.toNat < y.toNat) ∧ (condHolds f .v = true ↔ SignedOverflow (x.toInt - y.toInt))

/-! ## Logic (spec/41_alu_logic.md) -/

/-- R151, R153, R155, R157, R159: the register forms of or, and, xor. `c` is whatever `c_logic` the machine has. `c` is
whatever `c_logic` the machine has, the spec's decision D11 (log 4). -/
def Obligations.LogicRegistersCombineBitByBit : Prop :=
  ∀ (s : State) (d r t : Reg),
    Encodes (.or2 d r) (toBits 0b110000#6 ++ d.bits ++ r.bits) ∧ Combines (.or2 d r) or s d (s.reg d) (s.reg r) ∧
    Encodes (.and2 d r) (toBits 0b110010#6 ++ d.bits ++ r.bits) ∧ Combines (.and2 d r) and s d (s.reg d) (s.reg r) ∧
    Encodes (.and3 d r t) (toBits 0b1110110#7 ++ d.bits ++ r.bits ++ t.bits) ∧
    Combines (.and3 d r t) and s d (s.reg r) (s.reg t) ∧
    Encodes (.or3 d r t) (toBits 0b1111000#7 ++ d.bits ++ r.bits ++ t.bits) ∧
    Combines (.or3 d r t) or s d (s.reg r) (s.reg t) ∧
    Encodes (.xor3 d r t) (toBits 0b1111010#7 ++ d.bits ++ r.bits ++ t.bits) ∧
    Combines (.xor3 d r t) xor s d (s.reg r) (s.reg t)

/-- R152, R154, R156, R158, R160: the constant forms of or, and, xor, the constant zero-extended. `c` is whatever
`c_logic` the machine has, the spec's decision D11 (log 4). -/
def Obligations.LogicConstantsCombineBitByBit : Prop :=
  ∀ (s : State) (d r : Reg) (k : Const),
    Encodes (.or2i d k) (toBits 0b110001#6 ++ d.bits ++ k.bits) ∧
    Combines (.or2i d k) or s d (s.reg d) (zextConst k) ∧
    Encodes (.and2i d k) (toBits 0b110011#6 ++ d.bits ++ k.bits) ∧
    Combines (.and2i d k) and s d (s.reg d) (zextConst k) ∧
    Encodes (.and3i d r k) (toBits 0b1110111#7 ++ d.bits ++ r.bits ++ k.bits) ∧
    Combines (.and3i d r k) and s d (s.reg r) (zextConst k) ∧
    Encodes (.or3i d r k) (toBits 0b1111001#7 ++ d.bits ++ r.bits ++ k.bits) ∧
    Combines (.or3i d r k) or s d (s.reg r) (zextConst k) ∧
    Encodes (.xor3i d r k) (toBits 0b1111011#7 ++ d.bits ++ r.bits ++ k.bits) ∧
    Combines (.xor3i d r k) xor s d (s.reg r) (zextConst k)

/-! ## Moves and shifts (spec/42_move_shift.md) -/

/-- R171, R172: `let rd rs` and `leti rd K` (sign-extended) write the whole register and no flag. That the 1-bit form of
the constant is 0 or 1 under sign extension is the spec's decision D5 (log 15). -/
def Obligations.MovesCopyAndKeepFlags : Prop :=
  ∀ (s : State) (d r : Reg) (k : Const),
    Encodes (.letr d r) (toBits 0b0110#4 ++ d.bits ++ r.bits) ∧
    (∃ t, exec (.letr d r) s = .next t ∧ t.reg d = s.reg r ∧ t.flags = s.flags ∧
      Frame s t (· = d) nothing nothing s.io) ∧
    Encodes (.leti d k) (toBits 0b0111#4 ++ d.bits ++ k.bits) ∧
    (∃ t, exec (.leti d k) s = .next t ∧ t.reg d = sextConst k ∧ t.flags = s.flags ∧
      Frame s t (· = d) nothing nothing s.io)

/-- R173: `shift dir rd H`. Bit `j` of the result is bit `j - k` (left) or `j + k` (right) of the source, or 0 where
there is none; `c` is the last bit shifted out, or `c_shift0` for amount 0. That `c` is the last bit out, or
`c_shift0`, is the spec's decision D12 (logs 4 and 14). -/
def Obligations.LogicalShiftMovesBits : Prop :=
  ∀ (s : State) (d : Reg) (h : ShiftVal),
    (∀ x, Encodes (.shift x d h) (toBits 0b1000#4 ++ x.bits ++ d.bits ++ h.bits)) ∧
    (∃ t, exec (.shift .left d h) s = .next t ∧
      (∀ j, j < 64 → (t.reg d).getLsbD j =
        if shiftAmount h ≤ j then (s.reg d).getLsbD (j - shiftAmount h) else false) ∧
      ShiftEffect s t d (shiftAmount h) ((s.reg d).getLsbD (64 - shiftAmount h))) ∧
    (∃ t, exec (.shift .right d h) s = .next t ∧
      (∀ j, j < 64 → (t.reg d).getLsbD j =
        if j + shiftAmount h < 64 then (s.reg d).getLsbD (j + shiftAmount h) else false) ∧
      ShiftEffect s t d (shiftAmount h) ((s.reg d).getLsbD (shiftAmount h - 1)))

/-- R174: `asr3 rd rs H` divides the signed value by `2^k`, rounded toward minus infinity; equivalently bit `j` of the
result is bit `j + k` of the source, or its bit 63 where there is none. What `asr3` does, and its `c`, are the
spec's decisions D13 and D12 (logs 4 and 14). -/
def Obligations.ArithmeticShiftDividesTowardMinusInfinity : Prop :=
  ∀ (s : State) (d r : Reg) (h : ShiftVal),
    Encodes (.asr3 d r h) (toBits 0b1111100#7 ++ d.bits ++ r.bits ++ h.bits) ∧
    ∃ t, exec (.asr3 d r h) s = .next t ∧
      (t.reg d).toInt = Int.fdiv (s.reg r).toInt (2 ^ shiftAmount h) ∧
      (∀ j, j < 64 → (t.reg d).getLsbD j =
        if j + shiftAmount h ≤ 63 then (s.reg r).getLsbD (j + shiftAmount h) else (s.reg r).getLsbD 63) ∧
      ShiftEffect s t d (shiftAmount h) ((s.reg r).getLsbD (shiftAmount h - 1))

/-! ## Branches (spec/43_branch.md); `s.pc` is `a` -/

/-- R181: `jump A` sets `pc` to `a + d` and changes nothing else. That `jump` adds `d` is the resolution of the misprint
C1 (log 17), and the wrap modulo `2^64` the spec's decision D3 (log 13). -/
def Obligations.JumpAddsDisplacement : Prop :=
  ∀ (s : State) (x : Addr),
    Encodes (.jump x) (toBits 0b1010#4 ++ x.bits) ∧
    ∃ t, exec (.jump x) s = .next t ∧ GoesTo s t (s.pc + addrValue x)

/-- R182: `jumpif cond A` jumps if Table 3's formula holds of the flags, else `pc` stays `a`. The formula of `sgt` is
the reading of an ambiguous one, C6, and signed displacements are C7 (log 17); the wrap modulo `2^64` is the spec's
decision D3 (log 13). -/
def Obligations.JumpifJumpsExactlyWhenConditionHolds : Prop :=
  ∀ (s : State) (cc : Cond) (x : Addr),
    Encodes (.jumpif cc x) (toBits 0b1011#4 ++ cc.bits ++ x.bits) ∧
    ∃ t, exec (.jumpif cc x) s = .next t ∧
      (TableThree s.flags cc → GoesTo s t (s.pc + addrValue x)) ∧ (¬ TableThree s.flags cc → t = s)

/-- R183: `call A` puts `a` into `r7` and goes to the absolute target `d`. -/
def Obligations.CallLinksAndGoesToAbsoluteTarget : Prop :=
  ∀ (s : State) (x : Addr),
    Encodes (.call x) (toBits 0b110101#6 ++ x.bits) ∧
    ∃ t, exec (.call x) s = .next t ∧ t.reg .r7 = s.pc ∧ t.pc = addrValue x ∧ t.flags = s.flags ∧
      Frame s t (· = .r7) (· = .pc) nothing s.io

/-- R184: `return` goes to the address in `r7`, which it keeps, and does what `setctr pc r7` does. The last clause is
marked "[derived: from the two rules]" in R184; that `setctr pc` is a jump is the spec's decision D15 (log 21). -/
def Obligations.ReturnGoesToLinkRegister : Prop :=
  ∀ s : State,
    Encodes .ret (toBits 0b1110001#7) ∧
    (∃ t, exec .ret s = .next t ∧ GoesTo s t (s.reg .r7)) ∧
    (∃ t, exec .ret s = .next t ∧ exec (.setctr .pc .r7) s = .next t)

/-! ## Memory and counters (spec/20_memory.md, 44_memory_counters.md) -/

/-- R52: `MemRead(addr, n)` for `1 <= n <= 64`. Bit order and the fault are the spec's decisions D2 and D4 (log 13);
that a bit in a device's range is what the device answers, and not the cell R52 speaks of, is the model's (log 11).
-/
def Obligations.MemReadReadsMostSignificantFirst : Prop :=
  ∀ (s : State) (addr : Word) (n : Nat), 1 ≤ n → n ≤ 64 →
    (s.cfg.memBits < addr.toNat + n → s.memRead addr n = .error (.memFault (max addr.toNat s.cfg.memBits))) ∧
    (addr.toNat + n ≤ s.cfg.memBits →
      ∃ v, s.memRead addr n = .ok v ∧ ∀ j, j < n → v.getLsbD (n - 1 - j) = s.bit (addr.toNat + j))

/-- R53: `MemWrite(addr, n, v)` for `1 <= n <= 64`: the addressed bits change, no other bit does, and nothing else of
the state but what a device in the range has seen (log 11). Bit order and the fault are the spec's decisions D2 and
D4 (log 13). -/
def Obligations.MemWriteStoresMostSignificantFirst : Prop :=
  ∀ (s : State) (addr : Word) (n : Nat) (v : BitVec n), Memory.WF s.mem → 1 ≤ n → n ≤ 64 →
    (s.cfg.memBits < addr.toNat + n → s.memWrite addr v = .error (.memFault (max addr.toNat s.cfg.memBits))) ∧
    (addr.toNat + n ≤ s.cfg.memBits →
      ∃ t, s.memWrite addr v = .ok t ∧ (∀ j, j < n → t.cell (addr.toNat + j) = v.getLsbD (n - 1 - j)) ∧
        t.flags = s.flags ∧ Frame s t nothing nothing (bitsAt addr n) (s.ioAfter (.write addr.toNat (toBits v))))

/-- R54: the mixed-width law. The spec marks R54 as derived from R52 and R53, and their bit order is its decision D2
(log 13); in a device's range the three reads are of one device log, the model's (log 11). -/
def Obligations.WideReadIsTwoNarrowReads : Prop :=
  ∀ (s : State) (p : Word) (m n : Nat), s.cfg.Valid → 1 ≤ m → 1 ≤ n → m + n ≤ 64 →
    p.toNat + (m + n) ≤ s.cfg.memBits →
    ∃ h l, s.memRead p m = .ok h ∧ s.memRead (p + BitVec.ofNat 64 m) n = .ok l ∧ s.memRead p (m + n) = .ok (h ++ l)

/-- R191: `readze ctr size rd`, completing and faulting. Bit order and the fault are the spec's decisions D2 and D4, the
wrap of a counter D3 (log 13); an access through `pc`, which starts at `a`, is its decision D15 (log 21); what a
device answers, and its log, are the model's (log 11). -/
def Obligations.ReadzeZeroExtendsAndAdvances : Prop :=
  ∀ (s : State) (k : Ctr) (z : Size) (d : Reg),
    Encodes (.readze k z d) (toBits 0b10010#5 ++ k.bits ++ z.bits ++ d.bits) ∧
    ((s.ctr k).toNat + sizeBits z ≤ s.cfg.memBits →
      ∃ t, exec (.readze k z d) s = .next t ∧ HoldsBits s (s.ctr k) (sizeBits z) (t.reg d) ∧
        (∀ j, sizeBits z ≤ j → (t.reg d).getLsbD j = false) ∧ t.ctr k = s.ctr k + BitVec.ofNat 64 (sizeBits z) ∧
        t.flags = s.flags ∧ Frame s t (· = d) (· = k) nothing (s.ioAfter (.read (s.ctr k).toNat (sizeBits z)))) ∧
    (s.cfg.memBits < (s.ctr k).toNat + sizeBits z →
      exec (.readze k z d) s = .fault (OutOfRange s (s.ctr k)))

/-- R192: `readse ctr size rd`, completing and faulting. Bit order and the fault are the spec's decisions D2 and D4, the
wrap of a counter D3 (log 13); an access through `pc`, which starts at `a`, is its decision D15 (log 21); what a
device answers, and its log, are the model's (log 11). -/
def Obligations.ReadseSignExtendsAndAdvances : Prop :=
  ∀ (s : State) (k : Ctr) (z : Size) (d : Reg),
    Encodes (.readse k z d) (toBits 0b10011#5 ++ k.bits ++ z.bits ++ d.bits) ∧
    ((s.ctr k).toNat + sizeBits z ≤ s.cfg.memBits →
      ∃ t, exec (.readse k z d) s = .next t ∧ HoldsBits s (s.ctr k) (sizeBits z) (t.reg d) ∧
        (∀ j, sizeBits z ≤ j → j < 64 → (t.reg d).getLsbD j = s.bit (s.ctr k).toNat) ∧
        t.ctr k = s.ctr k + BitVec.ofNat 64 (sizeBits z) ∧
        t.flags = s.flags ∧ Frame s t (· = d) (· = k) nothing (s.ioAfter (.read (s.ctr k).toNat (sizeBits z)))) ∧
    (s.cfg.memBits < (s.ctr k).toNat + sizeBits z →
      exec (.readse k z d) s = .fault (OutOfRange s (s.ctr k)))

/-- R193: `write ctr size rs`, completing and faulting. The bits stored to are those at `s.ctr k`. Bit order and the
fault are the spec's decisions D2 and D4, the wrap of a counter D3 (log 13); an access through `pc`, which starts at
`a`, is its decision D15 (log 21); what a device answers, and its log, are the model's (log 11). -/
def Obligations.WriteStoresLowBitsAndAdvances : Prop :=
  ∀ (s : State) (k : Ctr) (z : Size) (r : Reg), Memory.WF s.mem →
    Encodes (.write k z r) (toBits 0b110100#6 ++ k.bits ++ z.bits ++ r.bits) ∧
    ((s.ctr k).toNat + sizeBits z ≤ s.cfg.memBits →
      ∃ t, exec (.write k z r) s = .next t ∧ StoresBits t (s.ctr k) (sizeBits z) (s.reg r) ∧
        t.ctr k = s.ctr k + BitVec.ofNat 64 (sizeBits z) ∧
        t.flags = s.flags ∧ Frame s t nothing (· = k) (bitsAt (s.ctr k) (sizeBits z))
          (s.ioAfter (.write (s.ctr k).toNat (toBits ((s.reg r).setWidth (sizeBits z)))))) ∧
    (s.cfg.memBits < (s.ctr k).toNat + sizeBits z →
      exec (.write k z r) s = .fault (OutOfRange s (s.ctr k)))

/-- R194: `setctr ctr rs` accepts every value. `setctr pc`, a jump, is the spec's decision D15 (log 21; R194 marks it as
derived); that a value of `MEMBITS` or more is accepted is its decision D4 (log 13). -/
def Obligations.SetctrCopiesRegisterToCounter : Prop :=
  ∀ (s : State) (k : Ctr) (r : Reg),
    Encodes (.setctr k r) (toBits 0b110110#6 ++ k.bits ++ r.bits) ∧
    ∃ t, exec (.setctr k r) s = .next t ∧ t.ctr k = s.reg r ∧ t.flags = s.flags ∧ Frame s t nothing (· = k) nothing s.io

/-- R195: `getctr ctr rd`; the counter is not changed. That `getctr pc` reads `a` is the spec's decision D15 (log 21).
-/
def Obligations.GetctrCopiesCounterToRegister : Prop :=
  ∀ (s : State) (k : Ctr) (d : Reg),
    Encodes (.getctr k d) (toBits 0b110111#6 ++ k.bits ++ d.bits) ∧
    ∃ t, exec (.getctr k d) s = .next t ∧ t.reg d = s.ctr k ∧ t.flags = s.flags ∧ Frame s t (· = d) nothing nothing s.io

/-- R196 and R197: `push rs` (64 bits) and, where `PUSH_FORM` is `prose`, `push size rs`, completing and faulting. The
bits stored to are those at `pushAddr s z`, `sp` less the bits pushed. That the form of Table 1 pushes 64 bits is
the spec's decision D14 (log 5); bit order, the fault and the wrap of `sp` are its decisions D2, D4 and D3 (log 13);
a device's log is the model's (log 11). -/
def Obligations.PushStoresBelowSp : Prop :=
  ∀ (s : State) (z : Option Size) (r : Reg), Memory.WF s.mem →
    Encodes (.push none r) (toBits 0b1110000#7 ++ r.bits) ∧
    (∀ z, Encodes (.push (some z) r) (toBits 0b1110000#7 ++ z.bits ++ r.bits)) ∧
    pushAddr s none = s.sp - 64 ∧ (∀ z, pushAddr s (some z) = s.sp - BitVec.ofNat 64 (sizeBits z)) ∧
    ((pushAddr s z).toNat + pushBits z ≤ s.cfg.memBits →
      ∃ t, exec (.push z r) s = .next t ∧ StoresBits t (pushAddr s z) (pushBits z) (s.reg r) ∧
        t.sp = pushAddr s z ∧ t.flags = s.flags ∧
        Frame s t nothing (· = .sp) (bitsAt (pushAddr s z) (pushBits z))
          (s.ioAfter (.write (pushAddr s z).toNat (toBits ((s.reg r).setWidth (pushBits z)))))) ∧
    (s.cfg.memBits < (pushAddr s z).toNat + pushBits z →
      exec (.push z r) s = .fault (OutOfRange s (pushAddr s z)))

/-- R198: `pop size rd` is `10010 01 Z ddd`, that is `readze sp size rd`; and `pop 64 rd` undoes `push rs`: `rd` gets
the value pushed and `sp` is what it was, where no device is mapped in those 64 bits (R58; log 11). R198 is the
inverse law here; what `pop` does on any state is `Obligations.ReadzeZeroExtendsAndAdvances`. That `push` pushes 64
bits is the spec's decision D14 (log 5); bit order and the wrap of `sp` are D2 and D3 (log 13). -/
def Obligations.PopUndoesPush : Prop :=
  ∀ (s : State) (r d : Reg) (z : Size), Memory.WF s.mem → (s.sp - 64).toNat + 64 ≤ s.cfg.memBits →
    s.cfg.touchesDevice (s.sp - 64).toNat 64 = false →
    Encodes (.readze .sp z d) (toBits 0b10010#5 ++ toBits 0b01#2 ++ z.bits ++ d.bits) ∧
    ∃ t u, exec (.push none r) s = .next t ∧ exec (.readze .sp .b64 d) t = .next u ∧
      u.reg d = s.reg r ∧ u.sp = s.sp ∧ ∀ q, q ≠ d → u.reg q = s.reg q

/-! ## Faults (spec/60_exceptions.md) -/

/-- R98: the three reserved code words decode with no operand bits read, and raise `ReservedOpcode` with their 7 bits;
no other instruction does. That a reserved code word raises this fault is the spec's decision D8 (log 20). -/
def Obligations.ReservedOpcodesStop : Prop :=
  (∀ (s : State) (i : Instr) (b : BitVec 7), reservedBits i = some b →
    Encodes i (toBits b) ∧ exec i s = .fault (.reservedOpcode b)) ∧
  (∀ s : State, exec .reserved1111101 s = .fault (.reservedOpcode 0b1111101#7) ∧
    exec .reserved1111110 s = .fault (.reservedOpcode 0b1111110#7) ∧
    exec .reserved1111111 s = .fault (.reservedOpcode 0b1111111#7)) ∧
  (∀ (s : State) (i : Instr) (b : BitVec 7), reservedBits i = none → exec i s ≠ .fault (.reservedOpcode b))

/-- R212: which instructions fault in execution, when, and with what: a reserved code word, or a data access with a bit
outside memory. Nothing else does, and no instruction is refused. The faults of R212's rows for execution; the row
for fetch is the next statements'. The faults are the spec's decisions D4 and D8 (logs 13 and 20). -/
def Obligations.ExecutionFaultsExactlyAsListed : Prop :=
  ∀ (s : State) (i : Instr),
    (∀ f, exec i s = .fault f ↔
      (∃ b, reservedBits i = some b ∧ f = .reservedOpcode b) ∨
      (∃ a n, dataAccess s i = some (a, n) ∧ s.cfg.memBits < a.toNat + n ∧ f = OutOfRange s a)) ∧
    (∀ q, exec i s ≠ .refused q)

/-- R52, R99, R213: a fetch that fails raises `MemFault` with the first address out of range, whatever the instruction
would have been, also a reserved one. The fault is the spec's decision D4 (log 13). -/
def Obligations.FetchFaultsWithFirstAddressOutOfMemory : Prop :=
  ∀ (s : State) (f : Fault), s.cfg.Valid → s.fetch.1 = .error f → f = .memFault (max s.pc.toNat s.cfg.memBits)

/-- R82, R99: a fetch that has the longest instruction's room to read never fails; where no device is mapped in that
room, the instruction stands in memory at `pc` and no device saw the fetch (log 11). The spec marks R99 as derived:
decoding is total. -/
def Obligations.FetchCompletesInsideMemory : Prop :=
  ∀ s : State, s.cfg.Valid → s.pc.toNat + 80 ≤ s.cfg.memBits →
    ∃ i t, s.fetch = (.ok i, t) ∧ i.wellFormed s.cfg.pushForm = true ∧ t = { afterFetch s i with io := t.io } ∧
      (s.cfg.touchesDevice s.pc.toNat 80 = false → StandsAtPc s i ∧ t.io = s.io)

/-- R212's row for fetch, R213: the fetch comes first. Where the 7 bits of the shortest instruction do not all lie inside
memory a step raises `MemFault`, also where the bits there begin a reserved opcode; so it does where the bits from `pc` to
the end of memory, none of a device, begin an instruction that has an opcode or operand bit outside memory; and whatever is
fetched, also from a device (log 11), lies inside memory with all its bits. (With `MEMBITS = 2^64` there is no address
outside memory for `pc` to reach.) The order of checks is the spec's decision D22 (log 6), the fault D4 (log 13). -/
def Obligations.FetchFaultPrecedesEveryOther : Prop :=
  ∀ s : State, s.cfg.Valid → s.cfg.memBits < 2 ^ 64 → s.status = .running →
    (s.cfg.memBits < s.pc.toNat + 7 → step s = .fault (.memFault (max s.pc.toNat s.cfg.memBits))) ∧
    (∀ i : Instr, i.wellFormed s.cfg.pushForm = true → s.cfg.memBits < s.pc.toNat + (encode i).length →
      s.cfg.touchesDevice s.pc.toNat (s.cfg.memBits - s.pc.toNat) = false →
      Memory.readBits s.mem s.pc.toNat (s.cfg.memBits - s.pc.toNat) <+: encode i →
      step s = .fault (.memFault (max s.pc.toNat s.cfg.memBits))) ∧
    (∀ i t, s.fetch = (.ok i, t) → s.pc.toNat + (encode i).length ≤ s.cfg.memBits)

/-- R211: in the faulted state the machine has no step; the machine that has it as a state stays in it. The faulted
state is the spec's decision D22 (log 6). -/
def Obligations.FaultedMachineHasNoStep : Prop :=
  ∀ (s : State) (f : Fault), s.status = .faulted f → step s = .fault f ∧ s.advanceMachine = s

/-- R214, R190, R211: a fault is precise: the faulted machine has the registers, flags, data counters and memory of the
machine before the instruction. Its `pc` is `a`, the first bit after the instruction, once the instruction was
fetched: also for the fault of a data access (R190) and, with `a` 7 bits on, for a reserved code word; and where a
field of it could not be fetched `pc` is at that field, which the fault names. Faulted states are the spec's
decision D22, which also allows `pc` to stay; what a field is, is an inference (log 6); a device's log is the
model's (log 11). -/
def Obligations.FaultsArePrecise : Prop :=
  ∀ (s : State) (f : Fault), step s = .fault f →
    s.advanceMachine.status = .faulted f ∧ s.advanceMachine.regs = s.regs ∧ s.advanceMachine.flags = s.flags ∧
    (∀ k, k ≠ .pc → s.advanceMachine.ctr k = s.ctr k) ∧ s.advanceMachine.mem = s.mem ∧
    s.advanceMachine.cfg = s.cfg ∧ (s.cfg.devices = [] → s.advanceMachine.io = s.io) ∧
    (s.status = .running →
      (∀ i t, s.fetch = (.ok i, t) → s.advanceMachine.pc = s.pc + BitVec.ofNat 64 (encode i).length) ∧
      (s.fetch.1 = .error f →
        s.advanceMachine.pc = s.fetch.2.pc ∧ f = .memFault (max s.advanceMachine.pc.toNat s.cfg.memBits)))

/-! ## The step, reset and loading -/

/-- R11, R24, R62: where a well-formed instruction stands at `pc` inside memory, a step of a running machine is the
meaning of that instruction in the state with `pc` at the first bit after it. Whatever is fetched, also from a
device (log 11), is well-formed and runs in that state, but for what the device logged of the fetch. Fetch before
data access is D17, wrap-around of `pc` D3 (log 13). -/
def Obligations.StepRunsInstructionAtPc : Prop :=
  ∀ (s : State) (i : Instr), s.status = .running →
    (s.cfg.Valid → StandsAtPc s i → step s = exec i (afterFetch s i)) ∧
    (∀ t, s.fetch = (.ok i, t) → i.wellFormed s.cfg.pushForm = true ∧ step s = exec i t ∧
      t = { afterFetch s i with io := t.io } ∧ (s.cfg.devices = [] → t.io = s.io))

/-- The same in terms of the decoder: if any bits from `pc` on, all inside memory and none of a device, decode to `i`, a
step is the meaning of `i` with `pc` moved past the bits decoded. -/
def Obligations.StepRunsDecodedInstruction : Prop :=
  ∀ (s : State) (n : Nat) (i : Instr) (rest : List Bool), s.cfg.Valid → s.status = .running →
    s.pc.toNat + n ≤ s.cfg.memBits → s.cfg.touchesDevice s.pc.toNat n = false →
    decode s.cfg.pushForm (Memory.readBits s.mem s.pc.toNat n) = .ok (i, rest) →
    i.wellFormed s.cfg.pushForm = true ∧ step s = exec i (s.setCtr .pc (s.pc + BitVec.ofNat 64 (n - rest.length)))

/-- R37, R230: after reset `pc` is 0 and the machine is running. Nothing is said of the values the spec leaves
unspecified (logs 1, 2, 3). -/
def Obligations.ResetStartsAtZeroRunning : Prop := State.reset.pc = 0 ∧ State.reset.status = .running

/-- R232: the launch state: the image bit for bit from address 0, `pc = 0`, running; the rest is as it was. The launch
state is the spec's decision D20 (log 10); a device's log is the model's (log 11). -/
def Obligations.LaunchHoldsImage : Prop :=
  ∀ (image : List Bool) (any : State), any.cfg.Valid → Memory.WF any.mem → image.length ≤ any.cfg.memBits →
    (State.launch image any).pc = 0 ∧ (State.launch image any).status = .running ∧
    (∀ j (h : j < image.length), (State.launch image any).cell j = image[j]) ∧
    (∀ j, image.length ≤ j → (State.launch image any).cell j = any.cell j) ∧
    (State.launch image any).regs = any.regs ∧ (State.launch image any).flags = any.flags ∧
    (∀ k, k ≠ .pc → (State.launch image any).ctr k = any.ctr k) ∧ (State.launch image any).cfg = any.cfg ∧
    (State.launch image any).io = any.io

/-- R230, R232: the first instruction executed is the one whose first bit is memory bit 0: the image's first. The image
is disjoint from `DEVICES` (92_eei_decisions.md, "Open parameters"). The launch state is the spec's decision D20
(log 10). -/
def Obligations.LaunchRunsFirstInstruction : Prop :=
  ∀ (i : Instr) (tail : List Bool) (any : State), any.cfg.Valid → Memory.WF any.mem →
    i.wellFormed any.cfg.pushForm = true → (encode i ++ tail).length ≤ any.cfg.memBits →
    any.cfg.touchesDevice 0 (encode i ++ tail).length = false →
    step (State.launch (encode i ++ tail) any) = exec i (afterFetch (State.launch (encode i ++ tail) any) i)

/-- The reset state is a state the machine can be in (logs 1, 2 and 3: its unspecified values are the model's). -/
def Obligations.ResetMeetsInvariant : Prop := State.reset.Inv

/-- Loading an image into a state the machine can be in gives one, also from the faulted state, which only reset leaves
(R211). Bits that do not fit memory are not stored, the model's choice (log 10). -/
def Obligations.LaunchMeetsInvariant : Prop :=
  ∀ (image : List Bool) (any : State), any.Inv → (State.launch image any).Inv

/-- Every step keeps the invariant: memory in canonical form with no bit outside `0 .. MEMBITS-1` (R50), parameters that
meet their constraint (R6); the step starts from and ends in a running machine, and changes no parameter; and where
`DEVICES` is empty, as by default, nothing is seen by a device (R58). The canonical form of memory and the device
log are the model's (logs 2, 7 and 11). -/
def Obligations.StepKeepsInvariant : Prop :=
  ∀ s t : State, s.Inv → step s = .next t → t.Inv ∧ s.status = .running ∧ t.status = .running ∧ t.cfg = s.cfg ∧
    (s.cfg.devices = [] → t.io = s.io)

/-- R239: a run that has ended normally stays where it is: the state steps to itself. The end of a run is the spec's
decision D21 (log 19). -/
def Obligations.EndedRunStepsToItself : Prop := ∀ s : State, s.ended = true → step s = .next s

/-- R239: the four encodings of the self-jump: `jump` by minus its own length, in each form of its operand, at any
address where it stands inside memory. The end of a run is the spec's decision D21 (log 19). -/
def Obligations.SelfJumpEndsRun : Prop :=
  ∀ (s : State) (x : Addr), s.cfg.Valid → s.status = .running →
    x ∈ [Addr.a8 (-13), .a16 (-22), .a32 (-39), .a64 (-71)] → StandsAtPc s (.jump x) → s.ended = true

/-! ## Who writes what (spec/10_state.md) -/

/-- R25: the flags each instruction updates; a flag not listed keeps its value. -/
def Obligations.UnlistedFlagsKeepTheirValue : Prop :=
  ∀ (s t : State) (i : Instr), exec i s = .next t →
    (writesAllFlags i = false → t.flags.v = s.flags.v) ∧
    (writesAllFlags i = false → writesZCN i = false → t.flags = s.flags)

/-- R26: the flags are read by `jumpif` only: any other instruction does the same to everything but the flags whatever
the flags were. The spec marks half of R26 as derived. -/
def Obligations.OnlyJumpifReadsFlags : Prop :=
  ∀ (s : State) (f : Flags) (i : Instr), (∀ cc x, i ≠ .jumpif cc x) →
    (∀ t, exec i s = .next t → ∃ u, exec i (s.setFlags f) = .next u ∧ u.setFlags t.flags = t) ∧
    (∀ g, exec i s = .fault g → exec i (s.setFlags f) = .fault g)

/-- R20, R24: what each instruction may write: its destination register, its counter, the memory bits it stores to, and
what a device its data access touches has seen (log 11); every other register, counter and memory bit keeps its
value, so that an instruction that writes no `pc` leaves it at `a`. Table columns 'written by' of R20 for registers,
counters and memory; flags are `Obligations.UnlistedFlagsKeepTheirValue`. -/
def Obligations.OnlyListedStateIsWritten : Prop :=
  ∀ (s t : State) (i : Instr), Memory.WF s.mem → exec i s = .next t →
    Frame s t (fun r => destination i = some r) (fun k => counterWritten i = some k) (storedAt s i)
      (ioWritten s i)

/-! ## Encoding (spec/30_encoding.md) -/

/-- Decoding an encoded instruction gives it back, with every operand at every value, whatever bits follow (R99). -/
def Obligations.DecodeOfEncode : Prop :=
  ∀ (f : PushForm) (i : Instr) (rest : List Bool), i.wellFormed f = true → decode f (encode i ++ rest) = .ok (i, rest)

/-- What decodes is an encoding: the bits taken are exactly the bits of the instruction found, and it is well-formed. -/
def Obligations.EncodeOfDecode : Prop :=
  ∀ (f : PushForm) (l rest : List Bool) (i : Instr), decode f l = .ok (i, rest) →
    l = encode i ++ rest ∧ i.wellFormed f = true

/-- R81, R99: decoding is total: a bit string as long as the longest instruction always begins with one. The spec marks
R99 as derived: decoding is total. -/
def Obligations.EveryBitStringDecodes : Prop :=
  ∀ (f : PushForm) (l : List Bool), 80 ≤ l.length → ∃ i rest, decode f l = .ok (i, rest)

/-- R12 ("prefix-free"): no instruction's bits are the beginning of another's. -/
def Obligations.EncodingIsPrefixFree : Prop :=
  ∀ (f : PushForm) (i j : Instr) (l m : List Bool), i.wellFormed f = true → j.wellFormed f = true →
    encode i ++ l = encode j ++ m → i = j ∧ l = m

/-- R97: the length of every instruction, form by form, from 7 to 80 bits. The spec marks R97 as derived. -/
def Obligations.InstructionLengths : Prop :=
  ∀ i : Instr, (encode i).length ∈ lengths i ∧ 7 ≤ (encode i).length ∧ (encode i).length ≤ 80

/-- R86, R87: the value of every form of a constant under each extension, the 1-bit form being 0 or 1 under both, and
its code: a prefix of 1 to 3 bits, which tells the forms apart, and the payload. That the 1-bit form is 0 or 1 under
both extensions is the spec's decision D5 (log 15), and the bit order of a payload its decision D2 (log 13). -/
def Obligations.ConstantValues : Prop :=
  (∀ b, (zextConst (.k1 b)).toNat = b.toNat ∧ (sextConst (.k1 b)).toNat = b.toNat ∧
    (Const.k1 b).bits = [false] ++ toBits b) ∧
  (∀ b, (zextConst (.k8 b)).toNat = b.toNat ∧ (sextConst (.k8 b)).toInt = b.toInt ∧
    (Const.k8 b).bits = [true, false] ++ toBits b) ∧
  (∀ b, (zextConst (.k32 b)).toNat = b.toNat ∧ (sextConst (.k32 b)).toInt = b.toInt ∧
    (Const.k32 b).bits = [true, true, false] ++ toBits b) ∧
  (∀ b, zextConst (.k64 b) = b ∧ sextConst (.k64 b) = b ∧ (Const.k64 b).bits = [true, true, true] ++ toBits b)

/-- R88: the value of every form of an `addr` operand is signed; a prefix of 1 to 3 bits tells the forms apart. That
`addr` is signed in every form, for `jump` and `jumpif` against a blank cell of Table 1, is the resolution C7 (log
17). -/
def Obligations.AddressValuesAreSigned : Prop :=
  (∀ b, (addrValue (.a8 b)).toInt = b.toInt ∧ (Addr.a8 b).bits = [false] ++ toBits b) ∧
  (∀ b, (addrValue (.a16 b)).toInt = b.toInt ∧ (Addr.a16 b).bits = [true, false] ++ toBits b) ∧
  (∀ b, (addrValue (.a32 b)).toInt = b.toInt ∧ (Addr.a32 b).bits = [true, true, false] ++ toBits b) ∧
  (∀ b, (addrValue (.a64 b)).toInt = b.toInt ∧ (Addr.a64 b).bits = [true, true, true] ++ toBits b)

/-- R85, R89, R90, R91, R92, R93: the codes of registers, shift amounts, access sizes, conditions, counters and
directions, with the number of an amount or a size; no amount reaches 64. The codes of conditions are R91, which the
spec marks as derived; the bit order of every code is its decision D2 (log 13). -/
def Obligations.OperandCodes : Prop :=
  (∀ n : Fin 8, ([Reg.r0, .r1, .r2, .r3, .r4, .r5, .r6, .r7][n]).bits = toBits (BitVec.ofNat 3 n)) ∧
  (∀ n : Fin 8, ([Cond.eq, .neq, .sgt, .slt, .gt, .ge, .lt, .v][n]).bits = toBits (BitVec.ofNat 3 n)) ∧
  (∀ n : Fin 4, ([Ctr.pc, .sp, .a0, .a1][n]).bits = toBits (BitVec.ofNat 2 n)) ∧
  Dir.bits .left = [false] ∧ Dir.bits .right = [true] ∧
  shiftAmount .one = 1 ∧ ShiftVal.one.bits = [true] ∧
  (∀ h, shiftAmount (.amount h) = h.toNat ∧ (ShiftVal.amount h).bits = [false] ++ toBits h) ∧
  (∀ h, shiftAmount h < 64) ∧
  (sizeBits .b1 = 1 ∧ Size.b1.bits = [false, false]) ∧ (sizeBits .b4 = 4 ∧ Size.b4.bits = [false, true]) ∧
  (sizeBits .b8 = 8 ∧ Size.b8.bits = [true, false, false]) ∧
  (sizeBits .b16 = 16 ∧ Size.b16.bits = [true, false, true]) ∧
  (sizeBits .b32 = 32 ∧ Size.b32.bits = [true, true, false]) ∧
  (sizeBits .b64 = 64 ∧ Size.b64.bits = [true, true, true])

/-- The source's example words (95_test_vectors.md S1, S2, S4, S5 and section 3) decode to the instructions they stand
for. -/
def Obligations.ExampleWordsDecode : Prop :=
  decode .table1 (toBits 0b0000000001#10) = .ok (.add2 .r0 .r1, []) ∧
  decode .table1 (toBits 0b01110001000010001#17) = .ok (.leti .r0 (.k8 17), []) ∧
  decode .table1 (toBits 0b001100001#9) = .ok (.sub2i .r0 (.k1 1), []) ∧
  decode .table1 (toBits 0b1011001011100111#16) = .ok (.jumpif .neq (.a8 (-25)), []) ∧
  decode .table1 (toBits 0b100000011#9) = .ok (.shift .left .r1 .one, []) ∧
  decode .table1 (toBits 0b1001010100001#13) = .ok (.readze .a0 .b8 .r1, []) ∧
  decode .table1 (toBits 0b110000000001#12) = .ok (.or2 .r0 .r1, []) ∧
  decode .table1 (toBits 0b1111101#7) = .ok (.reserved1111101, [])

/-! ## Fetch and memory together -/

/-- R65: a store is seen by every later fetch of the same bits. After a `write` or a `push` that completes, in every
form of it, a running machine whose `pc` is at `p` executes the instruction that the bits from `p` on then are, bits
stored and bits that were there before taken together, whether the store holds all of it or a part, if no device is
mapped there. Coherence of fetch is the spec's decision D17, bit order D2 (log 13); devices are the model's (log
11). -/
def Obligations.StoredInstructionIsFetched : Prop :=
  ∀ (s : State) (st i : Instr) (addr p : Word) (l : List Bool), s.Inv → s.status = .running →
    storedBits s st = some (addr, l) → addr.toNat + l.length ≤ s.cfg.memBits →
    i.wellFormed s.cfg.pushForm = true → p.toNat + (encode i).length ≤ s.cfg.memBits →
    s.cfg.touchesDevice p.toNat (encode i).length = false →
    (∀ j (h : j < (encode i).length), (encode i)[j] = cellAfterStore s addr l (p.toNat + j)) →
    ∃ t, exec st s = .next t ∧ step (t.setCtr .pc p) = exec i (afterFetch (t.setCtr .pc p) i)

/-- R199(b): `readze pc size rd` reads the bits that follow it in memory and execution goes on after them. The spec
marks R199(b) as derived; that the access starts at `a` is its decision D15 (log 21), bit order and the wrap of `pc`
are D2 and D3 (log 13); what a device answers, and its log, are the model's (log 11). -/
def Obligations.ReadThroughPcTakesInlineData : Prop :=
  ∀ (s : State) (z : Size) (d : Reg), s.cfg.Valid → s.status = .running → StandsAtPc s (.readze .pc z d) →
    s.pc.toNat + (encode (.readze .pc z d)).length + sizeBits z ≤ s.cfg.memBits →
    ∃ t, step s = .next t ∧
      t.pc = s.pc + BitVec.ofNat 64 ((encode (.readze .pc z d)).length + sizeBits z) ∧
      (∀ j, j < sizeBits z → (t.reg d).getLsbD (sizeBits z - 1 - j) =
        s.bit (s.pc.toNat + (encode (.readze .pc z d)).length + j)) ∧
      (∀ j, sizeBits z ≤ j → (t.reg d).getLsbD j = false) ∧
      (∀ r, r ≠ d → t.reg r = s.reg r) ∧ (∀ a, t.cell a = s.cell a) ∧
      t.io = s.ioAfter (.read (s.pc.toNat + (encode (.readze .pc z d)).length) (sizeBits z))

/-- R195, corner case: `getctr pc rd` gives the address of the first bit after the `getctr` itself. That `getctr pc`
reads `a` is the spec's decision D15 (log 21). -/
def Obligations.GetctrPcReadsAddressAfterItself : Prop :=
  ∀ (s : State) (d : Reg), s.cfg.Valid → s.status = .running → StandsAtPc s (.getctr .pc d) →
    ∃ t, step s = .next t ∧ t.reg d = s.pc + 11 ∧ t.pc = s.pc + 11 ∧ ∀ r, r ≠ d → t.reg r = s.reg r

/-! ## The assembler (spec/30_encoding.md R102 to R112) -/

/-- R111: a constant is sized to the shortest form whose decoded value equals the written value modulo `2^64`, under
either extension. R111 is the spec's decision D23; but where R111's list gives a written number the 64-bit form and
a shorter one equals it modulo `2^64` (a number outside 64 bits, or one from `2^63` to `2^64 - 1` under extension
`s`), that the shorter is taken is the model's choice, a DESIGN CHOICE (log 18). -/
def Obligations.ConstantsAreSizedShortest : Prop :=
  ∀ v : Int,
    zextConst (sizeConstZ v) = BitVec.ofInt 64 v ∧
    (∀ k, zextConst k = BitVec.ofInt 64 v → (sizeConstZ v).bits.length ≤ k.bits.length) ∧
    sextConst (sizeConstS v) = BitVec.ofInt 64 v ∧
    (∀ k, sextConst k = BitVec.ofInt 64 v → (sizeConstS v).bits.length ≤ k.bits.length)

/-- R111: the same for an address or displacement and for a shift amount; an amount of 64 or more has no form. R111 is
the spec's decision D23; but for an `addr` number of `2^63` or more or below `-2^63`, to which R111's list gives 64
bits, that a shorter form equal to it modulo `2^64` is taken is the model's choice, a DESIGN CHOICE (log 18). -/
def Obligations.AddressesAndAmountsAreSizedShortest : Prop :=
  (∀ v : Int, addrValue (sizeAddr v) = BitVec.ofInt 64 v ∧
    ∀ x, addrValue x = BitVec.ofInt 64 v → (sizeAddr v).bits.length ≤ x.bits.length) ∧
  (∀ n, n < 64 → ∃ h, sizeShift n = some h ∧ shiftAmount h = n ∧
    ∀ g, shiftAmount g = n → h.bits.length ≤ g.bits.length) ∧
  (∀ n, 64 ≤ n → sizeShift n = none)

/-- R106: a `jump`, `jumpif` or `call` to a label that stands at address `n` is placed as an instruction that goes to
`n`: for a jump placed at `p`, `a + d = n`; for a call, `d = n`. R106 for `call` is the spec's decision D23; how the
lengths are settled, which R106 leaves to the assembler, is the model's choice (log 18) and not stated here. -/
def Obligations.LabelUsesReachTheirLabel : Prop :=
  ∀ (env : List (Name × Nat)) (p : Nat) (u : LabelUse) (l : Name) (w : AddrWidth) (bits : List Bool),
    emitItem env p (.toLabel u l) w = .ok bits →
    ∃ n x, env.lookup l = some n ∧ bits = encode (u.withAddr x) ∧
      (u = .call → addrValue x = BitVec.ofNat 64 n) ∧
      (u ≠ .call → BitVec.ofNat 64 (p + bits.length) + addrValue x = BitVec.ofNat 64 n)
end

