-- ==== Sys2Proof/Laws/Bits.lean ====
section
/-! SUPPORT. Bits of a value and back, and cutting a bit string. -/

namespace Sys2Proof

@[simp] theorem toBits_length {n : Nat} (v : BitVec n) : (toBits v).length = n := by simp [toBits]

@[simp] theorem toBits_getElem {n : Nat} (v : BitVec n) (j : Nat) (h : j < (toBits v).length) :
    (toBits v)[j] = v.getMsbD j := by simp [toBits]

theorem bitsToNat_foldl (l : List Bool) (acc : Nat) :
    l.foldl (fun acc b => 2 * acc + b.toNat) acc = acc * 2 ^ l.length + bitsToNat l := by
  induction l generalizing acc with
  | nil => simp [bitsToNat]
  | cons b l ih =>
    simp only [bitsToNat, List.foldl_cons, List.length_cons]
    rw [ih, ih (2 * 0 + b.toNat)]
    ring

theorem bitsToNat_cons (b : Bool) (l : List Bool) : bitsToNat (b :: l) = b.toNat * 2 ^ l.length + bitsToNat l := by
  have := bitsToNat_foldl l b.toNat
  simpa [bitsToNat] using this

theorem bitsToNat_append (l m : List Bool) : bitsToNat (l ++ m) = bitsToNat l * 2 ^ m.length + bitsToNat m := by
  simp only [bitsToNat, List.foldl_append]
  rw [bitsToNat_foldl]; rfl

theorem bitsToNat_lt (l : List Bool) : bitsToNat l < 2 ^ l.length := by
  induction l with
  | nil => simp [bitsToNat]
  | cons b l ih =>
    rw [bitsToNat_cons, List.length_cons, pow_succ]
    cases b <;> simp <;> omega

theorem bitsToNat_testBit (l : List Bool) (i : Nat) :
    (bitsToNat l).testBit i = if h : i < l.length then l[l.length - 1 - i] else false := by
  induction l with
  | nil => simp [bitsToNat]
  | cons b l ih =>
    rw [bitsToNat_cons, Nat.mul_comm, Nat.testBit_two_pow_mul_add _ (bitsToNat_lt l), ih]
    by_cases h : i < l.length
    · rw [if_pos h, dif_pos h, dif_pos (by simp; omega)]
      have : (b :: l).length - 1 - i = (l.length - 1 - i) + 1 := by simp; omega
      simp only [this, List.getElem_cons_succ]
    · rw [if_neg h]
      by_cases h2 : i = l.length
      · subst h2; simp; cases b <;> rfl
      · rw [dif_neg (by simp; omega)]
        cases b
        · simp
        · rw [show i - l.length = (i - l.length - 1) + 1 by omega]
          simp [Nat.testBit_succ]

/-- Bit `j` of the value of a bit string, counted from its first bit. -/
theorem ofBits_getMsbD {n : Nat} {l : List Bool} (hl : l.length = n) (j : Nat) :
    (ofBits n l).getMsbD j = if h : j < l.length then l[j] else false := by
  rw [BitVec.getMsbD_eq_getLsbD]
  simp only [ofBits, BitVec.getLsbD_ofNat, bitsToNat_testBit]
  by_cases h : j < n
  · have h1 : n - 1 - j < n := by omega
    have h3 : n - 1 - (n - 1 - j) = j := by omega
    simp [h, h1, h3, hl]
  · simp [h, hl]

@[simp] theorem ofBits_toBits {n : Nat} (v : BitVec n) : ofBits n (toBits v) = v := by
  apply BitVec.eq_of_getMsbD_eq
  intro i hi
  rw [ofBits_getMsbD (toBits_length v)]
  simp [hi]

theorem toBits_ofBits {n : Nat} {l : List Bool} (hl : l.length = n) : toBits (ofBits n l) = l := by
  apply List.ext_getElem
  · simp [hl]
  · intro j h1 h2
    rw [toBits_getElem, ofBits_getMsbD hl, dif_pos h2]

/-- A value's bits are its own: no two values of one width have the same. -/
theorem toBits_injective {n : Nat} {v w : BitVec n} (h : toBits v = toBits w) : v = w := by
  rw [← ofBits_toBits v, h, ofBits_toBits]

theorem splitBits_append (h t : List Bool) : splitBits h.length (h ++ t) = some (h, t) := by
  induction h with
  | nil => rfl
  | cons b h ih => simp [splitBits, ih]

theorem splitBits_toBits {n : Nat} (v : BitVec n) (t : List Bool) : splitBits n (toBits v ++ t) = some (toBits v, t) := by
  have := splitBits_append (toBits v) t
  rwa [toBits_length] at this

/-- What cutting a bit string can answer. -/
theorem splitBits_some {n : Nat} {l h t : List Bool} (e : splitBits n l = some (h, t)) : l = h ++ t ∧ h.length = n := by
  induction n generalizing l h with
  | zero => simp only [splitBits, Option.some.injEq, Prod.mk.injEq] at e; obtain ⟨rfl, rfl⟩ := e; simp
  | succ n ih =>
    cases l with
    | nil => simp [splitBits] at e
    | cons b l =>
      simp only [splitBits, Option.map_eq_some_iff, Prod.mk.injEq] at e
      obtain ⟨⟨h', t'⟩, e', rfl, rfl⟩ := e
      obtain ⟨rfl, rfl⟩ := ih e'
      simp

theorem splitBits_eq_none {n : Nat} {l : List Bool} : splitBits n l = none ↔ l.length < n := by
  induction n generalizing l with
  | zero => simp [splitBits]
  | succ n ih => cases l with
    | nil => simp [splitBits]
    | cons b l => simp [splitBits, ih]

end Sys2Proof
end

