-- ==== Sys2Proof/Laws/Decode.lean ====
section
/-! SUPPORT. Running the decoder on bits: one lemma for each operand class, saying that its reader takes exactly the
operand's code. -/

namespace Sys2Proof

/-- A field is read back from its bits. -/
@[simp] theorem runList_take {α : Type} {n : Nat} (k : BitVec n → BitParser α) (v : BitVec n) (t : List Bool) :
    (BitParser.take n k).runList (toBits v ++ t) = (k v).runList t := by
  simp [BitParser.runList, splitBits_toBits]

/-- What a field's reader can answer on a bit string. -/
theorem runList_take_ok {α : Type} {n : Nat} {k : BitVec n → BitParser α} {l : List Bool} {r : α × List Bool}
    (h : (BitParser.take n k).runList l = .ok r) : ∃ v t, l = toBits v ++ t ∧ (k v).runList t = .ok r := by
  simp only [BitParser.runList] at h
  split at h
  · cases h
  · rename_i b t e
    obtain ⟨rfl, hb⟩ := splitBits_some e
    exact ⟨ofBits n b, t, by rw [toBits_ofBits hb], h⟩

/-- Reading one thing after another. -/
theorem runList_bind {α β : Type} (p : BitParser α) (g : α → BitParser β) (l : List Bool) :
    (p.bind g).runList l = (p.runList l).bind fun r => (g r.1).runList r.2 := by
  induction p generalizing l with
  | done a => rfl
  | take n k ih =>
    simp only [BitParser.bind, BitParser.runList]
    split
    · rfl
    · exact ih _ _

theorem runList_bind_of {α β : Type} {p : BitParser α} {g : α → BitParser β} {l t : List Bool} {a : α}
    (h : p.runList l = .ok (a, t)) : (p.bind g).runList l = (g a).runList t := by
  rw [runList_bind, h]; rfl

theorem runList_bind_ok {α β : Type} {p : BitParser α} {g : α → BitParser β} {l : List Bool} {r : β × List Bool}
    (h : (p.bind g).runList l = .ok r) : ∃ a t, p.runList l = .ok (a, t) ∧ (g a).runList t = .ok r := by
  rw [runList_bind] at h
  cases e : p.runList l with
  | error _ => rw [e] at h; cases h
  | ok q => rw [e] at h; exact ⟨q.1, q.2, rfl, h⟩

@[simp] theorem runList_done {α : Type} (a : α) (t : List Bool) : (BitParser.done a).runList t = .ok (a, t) := rfl

/-- A one-bit field written out. -/
theorem toBits_zero1 : toBits 0#1 = [false] := rfl
theorem toBits_one1 : toBits 1#1 = [true] := rfl

theorem runList_take1_false {α : Type} (k : BitVec 1 → BitParser α) (t : List Bool) :
    (BitParser.take 1 k).runList (false :: t) = (k 0#1).runList t := runList_take k 0#1 t

theorem runList_take1_true {α : Type} (k : BitVec 1 → BitParser α) (t : List Bool) :
    (BitParser.take 1 k).runList (true :: t) = (k 1#1).runList t := runList_take k 1#1 t

/-! ## Operand classes: code, then reader -/

@[simp] theorem parseReg_bits (r : Reg) (t : List Bool) : parseReg.runList (r.bits ++ t) = .ok (r, t) := by
  simp only [parseReg, Reg.bits, runList_take]; cases r <;> rfl

@[simp] theorem parseCtr_bits (c : Ctr) (t : List Bool) : parseCtr.runList (c.bits ++ t) = .ok (c, t) := by
  simp only [parseCtr, Ctr.bits, runList_take]; cases c <;> rfl

@[simp] theorem parseCond_bits (c : Cond) (t : List Bool) : parseCond.runList (c.bits ++ t) = .ok (c, t) := by
  simp only [parseCond, Cond.bits, runList_take]; cases c <;> rfl

@[simp] theorem parseDir_bits (x : Dir) (t : List Bool) : parseDir.runList (x.bits ++ t) = .ok (x, t) := by
  cases x <;> rfl

@[simp] theorem parseSize_bits (z : Size) (t : List Bool) : parseSize.runList (z.bits ++ t) = .ok (z, t) := by
  cases z <;> rfl

@[simp] theorem parseConst_bits (k : Const) (t : List Bool) : parseConst.runList (k.bits ++ t) = .ok (k, t) := by
  cases k <;>
    simp [parseConst, Const.bits, runList_take1_false, runList_take1_true]

@[simp] theorem parseAddr_bits (x : Addr) (t : List Bool) : parseAddr.runList (x.bits ++ t) = .ok (x, t) := by
  cases x <;>
    simp [parseAddr, Addr.bits, runList_take1_false, runList_take1_true]

@[simp] theorem parseShiftVal_bits (h : ShiftVal) (t : List Bool) :
    parseShiftVal.runList (h.bits ++ t) = .ok (h, t) := by
  cases h <;>
    simp [parseShiftVal, ShiftVal.bits, runList_take1_false, runList_take1_true]

/-! ## Operand classes: what a reader took was a code -/

/-- What the reader of a single field can answer. -/
theorem runList_field_ok {α : Type} {n : Nat} {f : BitVec n → α} {l t : List Bool} {a : α}
    (h : (BitParser.take n fun v => .done (f v)).runList l = .ok (a, t)) : ∃ v, l = toBits v ++ t ∧ a = f v := by
  obtain ⟨v, t', rfl, h'⟩ := runList_take_ok h
  simp only [runList_done, Except.ok.injEq, Prod.mk.injEq] at h'
  obtain ⟨rfl, rfl⟩ := h'
  exact ⟨v, rfl, rfl⟩

/-- What a reader that looks at one bit first can answer. -/
theorem runList_bit_ok {α : Type} {p q : BitParser α} {l : List Bool} {r : α × List Bool}
    (h : (BitParser.take 1 fun b => if b = 0#1 then p else q).runList l = .ok r) :
    (∃ t, l = false :: t ∧ p.runList t = .ok r) ∨ (∃ t, l = true :: t ∧ q.runList t = .ok r) := by
  obtain ⟨b, t, rfl, h'⟩ := runList_take_ok h
  have hb : ∀ b : BitVec 1, b = 0#1 ∨ b = 1#1 := by decide
  rcases hb b with rfl | rfl
  · exact .inl ⟨t, rfl, by simpa using h'⟩
  · exact .inr ⟨t, rfl, by simpa using h'⟩

theorem Reg.ofCode_bits (v : BitVec 3) : (Reg.ofCode v).bits = toBits v := by revert v; decide
theorem Ctr.ofCode_bits (v : BitVec 2) : (Ctr.ofCode v).bits = toBits v := by revert v; decide
theorem Cond.ofCode_bits (v : BitVec 3) : (Cond.ofCode v).bits = toBits v := by revert v; decide
theorem Size.ofShort_bits (v : BitVec 1) : (Size.ofShort v).bits = false :: toBits v := by revert v; decide
theorem Size.ofLong_bits (v : BitVec 2) : (Size.ofLong v).bits = true :: toBits v := by revert v; decide

theorem parseReg_ok {l t : List Bool} {r : Reg} (h : parseReg.runList l = .ok (r, t)) : l = r.bits ++ t := by
  obtain ⟨v, rfl, rfl⟩ := runList_field_ok h
  rw [Reg.ofCode_bits]

theorem parseCtr_ok {l t : List Bool} {c : Ctr} (h : parseCtr.runList l = .ok (c, t)) : l = c.bits ++ t := by
  obtain ⟨v, rfl, rfl⟩ := runList_field_ok h
  rw [Ctr.ofCode_bits]

theorem parseCond_ok {l t : List Bool} {c : Cond} (h : parseCond.runList l = .ok (c, t)) : l = c.bits ++ t := by
  obtain ⟨v, rfl, rfl⟩ := runList_field_ok h
  rw [Cond.ofCode_bits]

theorem parseDir_ok {l t : List Bool} {x : Dir} (h : parseDir.runList l = .ok (x, t)) : l = x.bits ++ t := by
  obtain ⟨v, rfl, rfl⟩ := runList_field_ok h
  congr 1
  exact (by decide : ∀ v : BitVec 1, toBits v = (if v = 0#1 then Dir.left else Dir.right).bits) v

theorem parseSize_ok {l t : List Bool} {z : Size} (h : parseSize.runList l = .ok (z, t)) : l = z.bits ++ t := by
  rcases runList_bit_ok h with ⟨t', rfl, h1⟩ | ⟨t', rfl, h1⟩
  · obtain ⟨v, rfl, rfl⟩ := runList_field_ok h1
    rw [Size.ofShort_bits]; rfl
  · obtain ⟨v, rfl, rfl⟩ := runList_field_ok h1
    rw [Size.ofLong_bits]; rfl

theorem parseConst_ok {l t : List Bool} {k : Const} (h : parseConst.runList l = .ok (k, t)) : l = k.bits ++ t := by
  rcases runList_bit_ok h with ⟨t', rfl, h1⟩ | ⟨t', rfl, h1⟩
  · obtain ⟨v, rfl, rfl⟩ := runList_field_ok h1; rfl
  rcases runList_bit_ok h1 with ⟨t', rfl, h2⟩ | ⟨t', rfl, h2⟩
  · obtain ⟨v, rfl, rfl⟩ := runList_field_ok h2; rfl
  rcases runList_bit_ok h2 with ⟨t', rfl, h3⟩ | ⟨t', rfl, h3⟩ <;>
    · obtain ⟨v, rfl, rfl⟩ := runList_field_ok h3; rfl

theorem parseAddr_ok {l t : List Bool} {x : Addr} (h : parseAddr.runList l = .ok (x, t)) : l = x.bits ++ t := by
  rcases runList_bit_ok h with ⟨t', rfl, h1⟩ | ⟨t', rfl, h1⟩
  · obtain ⟨v, rfl, rfl⟩ := runList_field_ok h1; rfl
  rcases runList_bit_ok h1 with ⟨t', rfl, h2⟩ | ⟨t', rfl, h2⟩
  · obtain ⟨v, rfl, rfl⟩ := runList_field_ok h2; rfl
  rcases runList_bit_ok h2 with ⟨t', rfl, h3⟩ | ⟨t', rfl, h3⟩ <;>
    · obtain ⟨v, rfl, rfl⟩ := runList_field_ok h3; rfl

theorem parseShiftVal_ok {l t : List Bool} {x : ShiftVal} (h : parseShiftVal.runList l = .ok (x, t)) :
    l = x.bits ++ t := by
  rcases runList_bit_ok h with ⟨t', rfl, h1⟩ | ⟨t', rfl, h1⟩
  · obtain ⟨v, rfl, rfl⟩ := runList_field_ok h1; rfl
  · simp only [runList_done, Except.ok.injEq, Prod.mk.injEq] at h1
    obtain ⟨rfl, rfl⟩ := h1; rfl

/-! ## Formats (R94): what the reader of an operand list took were the codes of the operands, in order -/

theorem parseRR_ok {mk : Reg → Reg → Instr} {l t : List Bool} {i : Instr}
    (h : (parseRR mk).runList l = .ok (i, t)) : ∃ a b, i = mk a b ∧ l = a.bits ++ (b.bits ++ t) := by
  obtain ⟨a, _, h1, g1⟩ := runList_bind_ok h
  obtain ⟨b, _, h2, g2⟩ := runList_bind_ok g1
  cases g2
  rw [parseReg_ok h1, parseReg_ok h2]
  exact ⟨_, _, rfl, rfl⟩

theorem parseRC_ok {mk : Reg → Const → Instr} {l t : List Bool} {i : Instr}
    (h : (parseRC mk).runList l = .ok (i, t)) : ∃ a b, i = mk a b ∧ l = a.bits ++ (b.bits ++ t) := by
  obtain ⟨a, _, h1, g1⟩ := runList_bind_ok h
  obtain ⟨b, _, h2, g2⟩ := runList_bind_ok g1
  cases g2
  rw [parseReg_ok h1, parseConst_ok h2]
  exact ⟨_, _, rfl, rfl⟩

theorem parseSH_ok {mk : Dir → Reg → ShiftVal → Instr} {l t : List Bool} {i : Instr}
    (h : (parseSH mk).runList l = .ok (i, t)) : ∃ a b c, i = mk a b c ∧ l = a.bits ++ (b.bits ++ (c.bits ++ t)) := by
  obtain ⟨a, _, h1, g1⟩ := runList_bind_ok h
  obtain ⟨b, _, h2, g2⟩ := runList_bind_ok g1
  obtain ⟨c, _, h3, g3⟩ := runList_bind_ok g2
  cases g3
  rw [parseDir_ok h1, parseReg_ok h2, parseShiftVal_ok h3]
  exact ⟨_, _, _, rfl, rfl⟩

theorem parseMEM_ok {mk : Ctr → Size → Reg → Instr} {l t : List Bool} {i : Instr}
    (h : (parseMEM mk).runList l = .ok (i, t)) : ∃ a b c, i = mk a b c ∧ l = a.bits ++ (b.bits ++ (c.bits ++ t)) := by
  obtain ⟨a, _, h1, g1⟩ := runList_bind_ok h
  obtain ⟨b, _, h2, g2⟩ := runList_bind_ok g1
  obtain ⟨c, _, h3, g3⟩ := runList_bind_ok g2
  cases g3
  rw [parseCtr_ok h1, parseSize_ok h2, parseReg_ok h3]
  exact ⟨_, _, _, rfl, rfl⟩

theorem parseJ_ok {mk : Addr → Instr} {l t : List Bool} {i : Instr}
    (h : (parseJ mk).runList l = .ok (i, t)) : ∃ a, i = mk a ∧ l = a.bits ++ t := by
  obtain ⟨a, _, h1, g1⟩ := runList_bind_ok h
  cases g1
  rw [parseAddr_ok h1]
  exact ⟨_, rfl, rfl⟩

theorem parseJC_ok {mk : Cond → Addr → Instr} {l t : List Bool} {i : Instr}
    (h : (parseJC mk).runList l = .ok (i, t)) : ∃ a b, i = mk a b ∧ l = a.bits ++ (b.bits ++ t) := by
  obtain ⟨a, _, h1, g1⟩ := runList_bind_ok h
  obtain ⟨b, _, h2, g2⟩ := runList_bind_ok g1
  cases g2
  rw [parseCond_ok h1, parseAddr_ok h2]
  exact ⟨_, _, rfl, rfl⟩

theorem parseCR_ok {mk : Ctr → Reg → Instr} {l t : List Bool} {i : Instr}
    (h : (parseCR mk).runList l = .ok (i, t)) : ∃ a b, i = mk a b ∧ l = a.bits ++ (b.bits ++ t) := by
  obtain ⟨a, _, h1, g1⟩ := runList_bind_ok h
  obtain ⟨b, _, h2, g2⟩ := runList_bind_ok g1
  cases g2
  rw [parseCtr_ok h1, parseReg_ok h2]
  exact ⟨_, _, rfl, rfl⟩

theorem parseRRR_ok {mk : Reg → Reg → Reg → Instr} {l t : List Bool} {i : Instr}
    (h : (parseRRR mk).runList l = .ok (i, t)) : ∃ a b c, i = mk a b c ∧ l = a.bits ++ (b.bits ++ (c.bits ++ t)) := by
  obtain ⟨a, _, h1, g1⟩ := runList_bind_ok h
  obtain ⟨b, _, h2, g2⟩ := runList_bind_ok g1
  obtain ⟨c, _, h3, g3⟩ := runList_bind_ok g2
  cases g3
  rw [parseReg_ok h1, parseReg_ok h2, parseReg_ok h3]
  exact ⟨_, _, _, rfl, rfl⟩

theorem parseRRC_ok {mk : Reg → Reg → Const → Instr} {l t : List Bool} {i : Instr}
    (h : (parseRRC mk).runList l = .ok (i, t)) : ∃ a b c, i = mk a b c ∧ l = a.bits ++ (b.bits ++ (c.bits ++ t)) := by
  obtain ⟨a, _, h1, g1⟩ := runList_bind_ok h
  obtain ⟨b, _, h2, g2⟩ := runList_bind_ok g1
  obtain ⟨c, _, h3, g3⟩ := runList_bind_ok g2
  cases g3
  rw [parseReg_ok h1, parseReg_ok h2, parseConst_ok h3]
  exact ⟨_, _, _, rfl, rfl⟩

theorem parseRRS_ok {mk : Reg → Reg → ShiftVal → Instr} {l t : List Bool} {i : Instr}
    (h : (parseRRS mk).runList l = .ok (i, t)) : ∃ a b c, i = mk a b c ∧ l = a.bits ++ (b.bits ++ (c.bits ++ t)) := by
  obtain ⟨a, _, h1, g1⟩ := runList_bind_ok h
  obtain ⟨b, _, h2, g2⟩ := runList_bind_ok g1
  obtain ⟨c, _, h3, g3⟩ := runList_bind_ok g2
  cases g3
  rw [parseReg_ok h1, parseReg_ok h2, parseShiftVal_ok h3]
  exact ⟨_, _, _, rfl, rfl⟩

theorem parsePush_ok {f : PushForm} {l t : List Bool} {i : Instr} (h : (parsePush f).runList l = .ok (i, t)) :
    (∃ r, i = .push none r ∧ l = r.bits ++ t ∧ f = .table1) ∨
    (∃ z r, i = .push (some z) r ∧ l = z.bits ++ (r.bits ++ t) ∧ f = .prose) := by
  cases f
  · obtain ⟨r, _, h1, g1⟩ := runList_bind_ok h
    cases g1
    rw [parseReg_ok h1]
    exact .inl ⟨_, rfl, rfl, rfl⟩
  · obtain ⟨z, _, h1, g1⟩ := runList_bind_ok h
    obtain ⟨r, _, h2, g2⟩ := runList_bind_ok g1
    cases g2
    rw [parseSize_ok h1, parseReg_ok h2]
    exact .inr ⟨_, _, rfl, rfl, rfl⟩

/-! ## Lengths of the codes (R84) -/

@[simp] theorem Reg.bits_length (r : Reg) : r.bits.length = 3 := by simp [Reg.bits]
@[simp] theorem Ctr.bits_length (c : Ctr) : c.bits.length = 2 := by simp [Ctr.bits]
@[simp] theorem Cond.bits_length (c : Cond) : c.bits.length = 3 := by simp [Cond.bits]
@[simp] theorem Dir.bits_length (x : Dir) : x.bits.length = 1 := by cases x <;> rfl

theorem Size.bits_length (z : Size) : z.bits.length = 2 ∨ z.bits.length = 3 := by cases z <;> simp [Size.bits]

theorem Const.bits_length (k : Const) :
    k.bits.length = 2 ∨ k.bits.length = 10 ∨ k.bits.length = 35 ∨ k.bits.length = 67 := by
  cases k <;> simp [Const.bits]

theorem Addr.bits_length (x : Addr) :
    x.bits.length = 9 ∨ x.bits.length = 18 ∨ x.bits.length = 35 ∨ x.bits.length = 67 := by
  cases x <;> simp [Addr.bits]

theorem ShiftVal.bits_length (h : ShiftVal) : h.bits.length = 1 ∨ h.bits.length = 7 := by
  cases h <;> simp [ShiftVal.bits]

end Sys2Proof
end

