-- ==== Sys2Proof/Laws/Memory.lean ====
section
/-! SUPPORT. Reading after writing, and the canonical form. -/

namespace Sys2Proof.Machine

/-- All addresses of `m` are above `a`. -/
abbrev Memory.Above (a : Nat) (m : Memory) : Prop := ∀ c ∈ m, a < c.1

theorem Memory.read_above {m : Memory} {a b : Nat} (h : Memory.Above a m) (hb : b ≤ a) :
    Memory.read m b = Memory.unlisted b := by
  induction m with
  | nil => rfl
  | cons c m ih =>
    have hc := h c (by simp)
    simp only [Memory.read]
    rw [if_neg (by omega)]
    exact ih fun x hx => h x (List.mem_cons_of_mem _ hx)

theorem Memory.wf_cons {c : Nat × Bool} {m : Memory} (h : Memory.WF (c :: m)) :
    Memory.Above c.1 m ∧ c.2 ≠ Memory.unlisted c.1 ∧ Memory.WF m := by
  obtain ⟨h1, h2⟩ := h
  rw [List.pairwise_cons] at h1
  exact ⟨fun x hx => h1.1 x hx, h2 c (by simp), h1.2, fun x hx => h2 x (List.mem_cons_of_mem _ hx)⟩

theorem Memory.wf_cons_of {c : Nat × Bool} {m : Memory} (h1 : Memory.Above c.1 m) (h2 : c.2 ≠ Memory.unlisted c.1)
    (h3 : Memory.WF m) : Memory.WF (c :: m) := by
  refine ⟨List.pairwise_cons.2 ⟨h1, h3.1⟩, ?_⟩
  intro x hx
  rcases List.mem_cons.1 hx with rfl | hx
  · exact h2
  · exact h3.2 x hx

/-- The addresses listed after a write are among those before and the one written. -/
theorem Memory.mem_write {m : Memory} {a : Nat} {b : Bool} {c : Nat × Bool} (h : c ∈ Memory.write m a b) :
    c ∈ m ∨ c = (a, b) := by
  induction m with
  | nil => simp only [Memory.write] at h; split at h <;> simp_all
  | cons d m ih =>
    simp only [Memory.write] at h
    split at h
    · split at h
      · exact .inl h
      · rcases List.mem_cons.1 h with rfl | h
        · exact .inr rfl
        · exact .inl h
    · split at h
      · split at h
        · exact .inl (List.mem_cons_of_mem _ h)
        · rcases List.mem_cons.1 h with rfl | h
          · exact .inr rfl
          · exact .inl (List.mem_cons_of_mem _ h)
      · rcases List.mem_cons.1 h with rfl | h
        · exact .inl (by simp)
        · rcases ih h with h | h
          · exact .inl (List.mem_cons_of_mem _ h)
          · exact .inr h

/-- A write keeps the canonical form. -/
theorem Memory.write_wf {m : Memory} (h : Memory.WF m) (a : Nat) (b : Bool) : Memory.WF (Memory.write m a b) := by
  induction m with
  | nil =>
    simp only [Memory.write]
    split
    · exact h
    · rename_i hb; exact Memory.wf_cons_of (by simp) hb h
  | cons d m ih =>
    obtain ⟨h1, h2, h3⟩ := Memory.wf_cons h
    simp only [Memory.write]
    split
    · rename_i had
      split
      · exact h
      · rename_i hb
        refine Memory.wf_cons_of ?_ hb h
        intro x hx
        rcases List.mem_cons.1 hx with rfl | hx
        · exact had
        · exact Nat.lt_trans had (h1 x hx)
    · rename_i had
      split
      · rename_i hd
        split
        · exact h3
        · rename_i hb; exact Memory.wf_cons_of (by simpa [hd] using h1) hb h3
      · rename_i hd
        refine Memory.wf_cons_of ?_ h2 (ih h3)
        intro x hx
        rcases Memory.mem_write hx with hx | rfl
        · exact h1 x hx
        · show d.1 < a; omega

/-- A read after a write to the same address gives the bit written; another address is left alone. -/
theorem Memory.read_write {m : Memory} (h : Memory.WF m) (a c : Nat) (b : Bool) :
    Memory.read (Memory.write m a b) c = if c = a then b else Memory.read m c := by
  induction m with
  | nil =>
    simp only [Memory.write]
    split
    · rename_i hb; by_cases hc : c = a
      · simp [hc, hb, Memory.read]
      · simp [hc]
    · by_cases hc : c = a
      · simp [hc, Memory.read]
      · simp [hc, Memory.read, Ne.symm hc]
  | cons d m ih =>
    obtain ⟨h1, h2, h3⟩ := Memory.wf_cons h
    have ih := ih h3
    simp only [Memory.write]
    by_cases had : a < d.1
    · rw [if_pos had]
      by_cases hb : b = Memory.unlisted a
      · rw [if_pos hb]
        by_cases hc : c = a
        · subst hc
          rw [if_pos rfl, hb]
          exact Memory.read_above (a := c)
            (fun x hx => by
              rcases List.mem_cons.1 hx with rfl | hx
              · exact had
              · exact Nat.lt_trans had (h1 x hx)) (Nat.le_refl c)
        · rw [if_neg hc]
      · rw [if_neg hb]
        by_cases hc : c = a
        · simp [hc, Memory.read]
        · simp [Memory.read, Ne.symm hc, hc]
    · rw [if_neg had]
      by_cases hd : a = d.1
      · rw [if_pos hd]
        by_cases hb : b = Memory.unlisted a
        · rw [if_pos hb]
          by_cases hc : c = a
          · rw [if_pos hc, hb, hc, hd]
            exact Memory.read_above h1 (Nat.le_refl _)
          · rw [if_neg hc]; simp only [Memory.read]; rw [if_neg (by omega)]
        · rw [if_neg hb]
          by_cases hc : c = a
          · simp [hc, Memory.read]
          · rw [if_neg hc]; simp only [Memory.read]; rw [if_neg (by omega), if_neg (by omega)]
      · rw [if_neg hd]
        simp only [Memory.read]
        by_cases hdc : d.1 = c
        · rw [if_pos hdc, if_pos hdc, if_neg (by omega)]
        · rw [if_neg hdc, if_neg hdc, ih]

/-- Two memories in canonical form that read alike are equal. -/
theorem Memory.ext_read {m m' : Memory} (h : Memory.WF m) (h' : Memory.WF m')
    (e : ∀ a, Memory.read m a = Memory.read m' a) : m = m' := by
  induction m generalizing m' with
  | nil =>
    cases m' with
    | nil => rfl
    | cons d m' =>
      obtain ⟨_, h2, _⟩ := Memory.wf_cons h'
      have := e d.1
      simp only [Memory.read, if_true] at this
      exact absurd this.symm h2
  | cons c m ih =>
    obtain ⟨c1, c2, c3⟩ := Memory.wf_cons h
    cases m' with
    | nil =>
      have := e c.1
      simp only [Memory.read, if_true] at this
      exact absurd this c2
    | cons d m' =>
      obtain ⟨d1, d2, d3⟩ := Memory.wf_cons h'
      have hcd : c.1 = d.1 := by
        rcases Nat.lt_trichotomy c.1 d.1 with hlt | heq | hlt
        · have := e c.1
          simp only [Memory.read, if_true] at this
          rw [if_neg (by omega), Memory.read_above d1 (by omega)] at this
          exact absurd this c2
        · exact heq
        · have := e d.1
          simp only [Memory.read, if_true] at this
          rw [if_neg (by omega), Memory.read_above c1 (by omega)] at this
          exact absurd this.symm d2
      have hval : c.2 = d.2 := by
        have := e c.1
        simpa [Memory.read, hcd] using this
      have hrest : m = m' := by
        refine ih c3 d3 fun a => ?_
        by_cases ha : a ≤ c.1
        · rw [Memory.read_above c1 ha, Memory.read_above d1 (by omega)]
        · have := e a
          simp only [Memory.read] at this
          rwa [if_neg (by omega), if_neg (by omega)] at this
      rw [hrest, show c = d from Prod.ext hcd hval]

/-! ## Runs of bits -/

theorem Memory.writeBits_wf {m : Memory} (h : Memory.WF m) (a : Nat) (l : List Bool) :
    Memory.WF (Memory.writeBits m a l) := by
  induction l generalizing m a with
  | nil => exact h
  | cons b l ih => exact ih (Memory.write_wf h a b) (a + 1)

theorem Memory.mem_writeBits {m : Memory} {a : Nat} {l : List Bool} {c : Nat × Bool}
    (h : c ∈ Memory.writeBits m a l) : c ∈ m ∨ (a ≤ c.1 ∧ c.1 < a + l.length) := by
  induction l generalizing m a with
  | nil => exact .inl h
  | cons b l ih =>
    rcases ih h with h | ⟨h1, h2⟩
    · rcases Memory.mem_write h with h | rfl
      · exact .inl h
      · exact .inr (by simp)
    · exact .inr (by simp; omega)

/-- What reads after a run of bits is stored: the bit of the run there, or what it was. -/
theorem Memory.read_writeBits {m : Memory} (h : Memory.WF m) (a c : Nat) (l : List Bool) :
    Memory.read (Memory.writeBits m a l) c =
      if h : a ≤ c ∧ c < a + l.length then l[c - a]'(by omega) else Memory.read m c := by
  induction l generalizing m a with
  | nil => rw [dif_neg (by simp)]; rfl
  | cons b l ih =>
    simp only [Memory.writeBits]
    rw [ih (Memory.write_wf h a b), Memory.read_write h]
    by_cases h1 : c = a
    · subst h1
      rw [dif_neg (by omega), dif_pos (by simp)]
      simp
    · by_cases h2 : a + 1 ≤ c ∧ c < a + 1 + l.length
      · rw [dif_pos h2, dif_pos (by simp; omega)]
        have : c - a = (c - (a + 1)) + 1 := by omega
        simp only [this, List.getElem_cons_succ]
      · rw [dif_neg h2, if_neg h1, dif_neg (by simp; omega)]

@[simp] theorem Memory.readBits_length (m : Memory) (a n : Nat) : (Memory.readBits m a n).length = n := by
  simp [Memory.readBits]

@[simp] theorem Memory.readBits_getElem (m : Memory) (a n j : Nat) (h : j < (Memory.readBits m a n).length) :
    (Memory.readBits m a n)[j] = Memory.read m (a + j) := by simp [Memory.readBits]

/-- Reading what was just written gives it back. -/
theorem Memory.readBits_writeBits {m : Memory} (h : Memory.WF m) (a : Nat) (l : List Bool) :
    Memory.readBits (Memory.writeBits m a l) a l.length = l := by
  apply List.ext_getElem
  · simp
  · intro j h1 h2
    rw [Memory.readBits_getElem, Memory.read_writeBits h, dif_pos (by omega)]
    simp

theorem Memory.readBits_append (m : Memory) (a n k : Nat) :
    Memory.readBits m a (n + k) = Memory.readBits m a n ++ Memory.readBits m (a + n) k := by
  simp only [Memory.readBits, List.range_add, List.map_append, List.map_map]
  congr 1
  apply List.map_congr_left
  intro j _
  simp [Nat.add_assoc]

end Sys2Proof.Machine
end

