-- ==== Sys2Proof/Laws/State.lean ====
section
/-! SUPPORT. What each update of the state leaves of each field, so that no later proof unfolds an update. -/

namespace Sys2Proof.Machine

/-! ## Registers -/

@[simp] theorem Regs.get_set_same (g : Regs) (r : Reg) (w : Word) : (g.set r w).get r = w := by
  cases r <;> rfl

@[simp] theorem Regs.get_set_of_ne (g : Regs) {r q : Reg} (w : Word) (h : q ≠ r) : (g.set r w).get q = g.get q := by
  cases r <;> cases q <;> first | rfl | exact absurd rfl h

theorem Regs.ext_get {g g' : Regs} (h : ∀ r, g.get r = g'.get r) : g = g' := by
  obtain ⟨a0, a1, a2, a3, a4, a5, a6, a7⟩ := g
  obtain ⟨b0, b1, b2, b3, b4, b5, b6, b7⟩ := g'
  have h0 := h .r0; have h1 := h .r1; have h2 := h .r2; have h3 := h .r3
  have h4 := h .r4; have h5 := h .r5; have h6 := h .r6; have h7 := h .r7
  simp only [Regs.get] at h0 h1 h2 h3 h4 h5 h6 h7
  simp only [h0, h1, h2, h3, h4, h5, h6, h7]

/-! ## `setReg` -/

@[simp] theorem setReg_reg_same (s : State) (r : Reg) (w : Word) : (s.setReg r w).reg r = w :=
  Regs.get_set_same s.regs r w

@[simp] theorem setReg_reg_of_ne (s : State) {r q : Reg} (w : Word) (h : q ≠ r) : (s.setReg r w).reg q = s.reg q :=
  Regs.get_set_of_ne s.regs w h

@[simp] theorem setReg_flags (s : State) (r : Reg) (w : Word) : (s.setReg r w).flags = s.flags := rfl
@[simp] theorem setReg_pc (s : State) (r : Reg) (w : Word) : (s.setReg r w).pc = s.pc := rfl
@[simp] theorem setReg_sp (s : State) (r : Reg) (w : Word) : (s.setReg r w).sp = s.sp := rfl
@[simp] theorem setReg_a0 (s : State) (r : Reg) (w : Word) : (s.setReg r w).a0 = s.a0 := rfl
@[simp] theorem setReg_a1 (s : State) (r : Reg) (w : Word) : (s.setReg r w).a1 = s.a1 := rfl
@[simp] theorem setReg_ctr (s : State) (r : Reg) (w : Word) (k : Ctr) : (s.setReg r w).ctr k = s.ctr k := rfl
@[simp] theorem setReg_mem (s : State) (r : Reg) (w : Word) : (s.setReg r w).mem = s.mem := rfl
@[simp] theorem setReg_bit (s : State) (r : Reg) (w : Word) (a : Nat) : (s.setReg r w).bit a = s.bit a := rfl
@[simp] theorem setReg_cell (s : State) (r : Reg) (w : Word) (a : Nat) : (s.setReg r w).cell a = s.cell a := rfl
@[simp] theorem setReg_io (s : State) (r : Reg) (w : Word) : (s.setReg r w).io = s.io := rfl
@[simp] theorem setReg_status (s : State) (r : Reg) (w : Word) : (s.setReg r w).status = s.status := rfl
@[simp] theorem setReg_cfg (s : State) (r : Reg) (w : Word) : (s.setReg r w).cfg = s.cfg := rfl

/-! ## `setCtr` -/

@[simp] theorem setCtr_ctr_same (s : State) (k : Ctr) (w : Word) : (s.setCtr k w).ctr k = w := by
  cases k <;> rfl

@[simp] theorem setCtr_ctr_of_ne (s : State) {k j : Ctr} (w : Word) (h : j ≠ k) : (s.setCtr k w).ctr j = s.ctr j := by
  cases k <;> cases j <;> first | rfl | exact absurd rfl h

@[simp] theorem setCtr_regs (s : State) (k : Ctr) (w : Word) : (s.setCtr k w).regs = s.regs := by cases k <;> rfl
@[simp] theorem setCtr_reg (s : State) (k : Ctr) (w : Word) (r : Reg) : (s.setCtr k w).reg r = s.reg r := by
  cases k <;> rfl
@[simp] theorem setCtr_flags (s : State) (k : Ctr) (w : Word) : (s.setCtr k w).flags = s.flags := by cases k <;> rfl
@[simp] theorem setCtr_mem (s : State) (k : Ctr) (w : Word) : (s.setCtr k w).mem = s.mem := by cases k <;> rfl
@[simp] theorem setCtr_bit (s : State) (k : Ctr) (w : Word) (a : Nat) : (s.setCtr k w).bit a = s.bit a := by
  cases k <;> rfl
@[simp] theorem setCtr_cell (s : State) (k : Ctr) (w : Word) (a : Nat) : (s.setCtr k w).cell a = s.cell a := by
  cases k <;> rfl
@[simp] theorem setCtr_io (s : State) (k : Ctr) (w : Word) : (s.setCtr k w).io = s.io := by cases k <;> rfl
@[simp] theorem setCtr_status (s : State) (k : Ctr) (w : Word) : (s.setCtr k w).status = s.status := by
  cases k <;> rfl
@[simp] theorem setCtr_cfg (s : State) (k : Ctr) (w : Word) : (s.setCtr k w).cfg = s.cfg := by cases k <;> rfl
@[simp] theorem setCtr_pc_pc (s : State) (w : Word) : (s.setCtr .pc w).pc = w := rfl
@[simp] theorem setCtr_pc_sp (s : State) (w : Word) : (s.setCtr .pc w).sp = s.sp := rfl

theorem ctr_pc (s : State) : s.ctr .pc = s.pc := rfl
theorem ctr_sp (s : State) : s.ctr .sp = s.sp := rfl

/-! ## `advance`: the same counter moves, nothing else does -/

@[simp] theorem advance_ctr_same (s : State) (k : Ctr) (n : Nat) :
    (s.advance k n).ctr k = s.ctr k + BitVec.ofNat 64 n := setCtr_ctr_same ..
@[simp] theorem advance_ctr_of_ne (s : State) {k j : Ctr} (n : Nat) (h : j ≠ k) :
    (s.advance k n).ctr j = s.ctr j := setCtr_ctr_of_ne s _ h
@[simp] theorem advance_reg (s : State) (k : Ctr) (n : Nat) (r : Reg) : (s.advance k n).reg r = s.reg r :=
  setCtr_reg ..
@[simp] theorem advance_regs (s : State) (k : Ctr) (n : Nat) : (s.advance k n).regs = s.regs := setCtr_regs ..
@[simp] theorem advance_flags (s : State) (k : Ctr) (n : Nat) : (s.advance k n).flags = s.flags := setCtr_flags ..
@[simp] theorem advance_mem (s : State) (k : Ctr) (n : Nat) : (s.advance k n).mem = s.mem := setCtr_mem ..
@[simp] theorem advance_bit (s : State) (k : Ctr) (n a : Nat) : (s.advance k n).bit a = s.bit a := setCtr_bit ..
@[simp] theorem advance_cell (s : State) (k : Ctr) (n a : Nat) : (s.advance k n).cell a = s.cell a := setCtr_cell ..
@[simp] theorem advance_io (s : State) (k : Ctr) (n : Nat) : (s.advance k n).io = s.io := setCtr_io ..
@[simp] theorem advance_status (s : State) (k : Ctr) (n : Nat) : (s.advance k n).status = s.status :=
  setCtr_status ..
@[simp] theorem advance_cfg (s : State) (k : Ctr) (n : Nat) : (s.advance k n).cfg = s.cfg := setCtr_cfg ..

/-! ## `setFlags` -/

@[simp] theorem setFlags_flags (s : State) (f : Flags) : (s.setFlags f).flags = f := rfl
@[simp] theorem setFlags_regs (s : State) (f : Flags) : (s.setFlags f).regs = s.regs := rfl
@[simp] theorem setFlags_reg (s : State) (f : Flags) (r : Reg) : (s.setFlags f).reg r = s.reg r := rfl
@[simp] theorem setFlags_pc (s : State) (f : Flags) : (s.setFlags f).pc = s.pc := rfl
@[simp] theorem setFlags_sp (s : State) (f : Flags) : (s.setFlags f).sp = s.sp := rfl
@[simp] theorem setFlags_ctr (s : State) (f : Flags) (k : Ctr) : (s.setFlags f).ctr k = s.ctr k := rfl
@[simp] theorem setFlags_mem (s : State) (f : Flags) : (s.setFlags f).mem = s.mem := rfl
@[simp] theorem setFlags_bit (s : State) (f : Flags) (a : Nat) : (s.setFlags f).bit a = s.bit a := rfl
@[simp] theorem setFlags_cell (s : State) (f : Flags) (a : Nat) : (s.setFlags f).cell a = s.cell a := rfl
@[simp] theorem setFlags_io (s : State) (f : Flags) : (s.setFlags f).io = s.io := rfl
@[simp] theorem setFlags_status (s : State) (f : Flags) : (s.setFlags f).status = s.status := rfl
@[simp] theorem setFlags_cfg (s : State) (f : Flags) : (s.setFlags f).cfg = s.cfg := rfl

/-! ## `writeAlu`: a register and the flags -/

@[simp] theorem writeAlu_reg_same (s : State) (d : Reg) (r : Word × Flags) : (s.writeAlu d r).reg d = r.1 :=
  setReg_reg_same ..
@[simp] theorem writeAlu_reg_of_ne (s : State) {d q : Reg} (r : Word × Flags) (h : q ≠ d) :
    (s.writeAlu d r).reg q = s.reg q := setReg_reg_of_ne s _ h
@[simp] theorem writeAlu_flags (s : State) (d : Reg) (r : Word × Flags) : (s.writeAlu d r).flags = r.2 := rfl
@[simp] theorem writeAlu_ctr (s : State) (d : Reg) (r : Word × Flags) (k : Ctr) :
    (s.writeAlu d r).ctr k = s.ctr k := rfl
@[simp] theorem writeAlu_pc (s : State) (d : Reg) (r : Word × Flags) : (s.writeAlu d r).pc = s.pc := rfl
@[simp] theorem writeAlu_mem (s : State) (d : Reg) (r : Word × Flags) : (s.writeAlu d r).mem = s.mem := rfl
@[simp] theorem writeAlu_bit (s : State) (d : Reg) (r : Word × Flags) (a : Nat) :
    (s.writeAlu d r).bit a = s.bit a := rfl
@[simp] theorem writeAlu_cell (s : State) (d : Reg) (r : Word × Flags) (a : Nat) :
    (s.writeAlu d r).cell a = s.cell a := rfl
@[simp] theorem writeAlu_io (s : State) (d : Reg) (r : Word × Flags) : (s.writeAlu d r).io = s.io := rfl
@[simp] theorem writeAlu_status (s : State) (d : Reg) (r : Word × Flags) : (s.writeAlu d r).status = s.status := rfl
@[simp] theorem writeAlu_cfg (s : State) (d : Reg) (r : Word × Flags) : (s.writeAlu d r).cfg = s.cfg := rfl

/-! ## `enterFault` -/

@[simp] theorem enterFault_status (s : State) (f : Fault) : (s.enterFault f).status = .faulted f := rfl
@[simp] theorem enterFault_regs (s : State) (f : Fault) : (s.enterFault f).regs = s.regs := rfl
@[simp] theorem enterFault_flags (s : State) (f : Fault) : (s.enterFault f).flags = s.flags := rfl
@[simp] theorem enterFault_ctr (s : State) (f : Fault) (k : Ctr) : (s.enterFault f).ctr k = s.ctr k := rfl
@[simp] theorem enterFault_mem (s : State) (f : Fault) : (s.enterFault f).mem = s.mem := rfl
@[simp] theorem enterFault_io (s : State) (f : Fault) : (s.enterFault f).io = s.io := rfl
@[simp] theorem enterFault_cfg (s : State) (f : Fault) : (s.enterFault f).cfg = s.cfg := rfl

/-! ## `note`: what a device has seen, and nothing else -/

@[simp] theorem note_io (s : State) (e : DeviceAccess) : (s.note e).io = s.ioAfter e := rfl
@[simp] theorem note_regs (s : State) (e : DeviceAccess) : (s.note e).regs = s.regs := rfl
@[simp] theorem note_reg (s : State) (e : DeviceAccess) (r : Reg) : (s.note e).reg r = s.reg r := rfl
@[simp] theorem note_flags (s : State) (e : DeviceAccess) : (s.note e).flags = s.flags := rfl
@[simp] theorem note_pc (s : State) (e : DeviceAccess) : (s.note e).pc = s.pc := rfl
@[simp] theorem note_ctr (s : State) (e : DeviceAccess) (k : Ctr) : (s.note e).ctr k = s.ctr k := by cases k <;> rfl
@[simp] theorem note_mem (s : State) (e : DeviceAccess) : (s.note e).mem = s.mem := rfl
@[simp] theorem note_cell (s : State) (e : DeviceAccess) (a : Nat) : (s.note e).cell a = s.cell a := rfl
@[simp] theorem note_status (s : State) (e : DeviceAccess) : (s.note e).status = s.status := rfl
@[simp] theorem note_cfg (s : State) (e : DeviceAccess) : (s.note e).cfg = s.cfg := rfl

end Sys2Proof.Machine
end

