-- ==== Sys2Proof/Laws/Ops.lean ====
section
/-! SUPPORT. One lemma for each shared operation, saying all it can answer. -/

namespace Sys2Proof.Machine

/-! ## Devices (R58): where there is none, memory is all there is -/

theorem touchesDevice_false {cfg : Config} {a n : Nat} :
    cfg.touchesDevice a n = false ↔ ∀ j, j < n → cfg.isDevice (a + j) = false := by
  simp [Config.touchesDevice]

theorem touchesDevice_append (cfg : Config) (a n k : Nat) :
    cfg.touchesDevice a (n + k) = (cfg.touchesDevice a n || cfg.touchesDevice (a + n) k) := by
  simp [Config.touchesDevice, List.range_add, List.any_append, List.any_map, Function.comp_def, Nat.add_assoc]

theorem isDevice_of_none {cfg : Config} (h : cfg.devices = []) (a : Nat) : cfg.isDevice a = false := by
  simp [Config.isDevice, h]

theorem touchesDevice_of_none {cfg : Config} (h : cfg.devices = []) (a n : Nat) : cfg.touchesDevice a n = false :=
  touchesDevice_false.2 fun _ _ => isDevice_of_none h _

theorem bit_of_not_device {s : State} {a : Nat} (h : s.cfg.isDevice a = false) : s.bit a = s.cell a := by
  simp [State.bit, h]

/-- A read answers what it did where memory, parameters and device log are the same. -/
theorem bit_congr {s t : State} {a : Nat} (hm : t.cell a = s.cell a) (hi : t.io = s.io) (hc : t.cfg = s.cfg) :
    t.bit a = s.bit a := by simp [State.bit, hm, hi, hc]

@[simp] theorem bits_length (s : State) (a n : Nat) : (s.bits a n).length = n := by simp [State.bits]

@[simp] theorem bits_getElem (s : State) (a n j : Nat) (h : j < (s.bits a n).length) :
    (s.bits a n)[j] = s.bit (a + j) := by simp [State.bits]

/-- A read that touches no device answers the memory cells. -/
theorem bits_of_not_touches {s : State} {a n : Nat} (h : s.cfg.touchesDevice a n = false) :
    s.bits a n = Memory.readBits s.mem a n :=
  List.map_congr_left fun j hj => bit_of_not_device (touchesDevice_false.1 h j (List.mem_range.1 hj))

/-- An access that touches no device leaves the machine as it was. -/
theorem note_of_not_touches {s : State} {e : DeviceAccess} (h : e.touches s.cfg = false) : s.note e = s := by
  simp [State.note, State.ioAfter, h]

theorem note_read_of_not_touches {s : State} {a n : Nat} (h : s.cfg.touchesDevice a n = false) :
    s.note (.read a n) = s := note_of_not_touches h

theorem ioAfter_of_none {s : State} (h : s.cfg.devices = []) (e : DeviceAccess) : s.ioAfter e = s.io := by
  cases e <;> simp [State.ioAfter, DeviceAccess.touches, touchesDevice_of_none h]

/-! ## `memRead` and `memWrite` (R52, R53) -/

theorem memRead_of_inMemory {s : State} {a : Word} {n : Nat} (h : s.inMemory a n) :
    s.memRead a n = .ok (ofBits n (s.bits a.toNat n)) := if_pos h

theorem memRead_of_not {s : State} {a : Word} {n : Nat} (h : ¬ s.inMemory a n) :
    s.memRead a n = .error (s.outOfMemory a) := if_neg h

theorem memRead_ok {s : State} {a : Word} {n : Nat} {v : BitVec n} (h : s.memRead a n = .ok v) :
    s.inMemory a n ∧ v = ofBits n (s.bits a.toNat n) := by
  by_cases hi : s.inMemory a n
  · rw [memRead_of_inMemory hi] at h; cases h; exact ⟨hi, rfl⟩
  · rw [memRead_of_not hi] at h; cases h

theorem memRead_error {s : State} {a : Word} {n : Nat} {f : Fault} (h : s.memRead a n = .error f) :
    ¬ s.inMemory a n ∧ f = s.outOfMemory a := by
  by_cases hi : s.inMemory a n
  · rw [memRead_of_inMemory hi] at h; cases h
  · rw [memRead_of_not hi] at h; cases h; exact ⟨hi, rfl⟩

/-- The state after a write inside memory: the bits stored, and the access in the log of a device it touches. -/
theorem memWrite_of_inMemory {s : State} {a : Word} {n : Nat} {v : BitVec n} (h : s.inMemory a n) :
    s.memWrite a v = .ok { s with
      mem := Memory.writeBits s.mem a.toNat (toBits v), io := s.ioAfter (.write a.toNat (toBits v)) } := if_pos h

theorem memWrite_of_not {s : State} {a : Word} {n : Nat} {v : BitVec n} (h : ¬ s.inMemory a n) :
    s.memWrite a v = .error (s.outOfMemory a) := if_neg h

theorem memWrite_ok {s t : State} {a : Word} {n : Nat} {v : BitVec n} (h : s.memWrite a v = .ok t) :
    s.inMemory a n ∧ t = { s with
      mem := Memory.writeBits s.mem a.toNat (toBits v), io := s.ioAfter (.write a.toNat (toBits v)) } := by
  by_cases hi : s.inMemory a n
  · rw [memWrite_of_inMemory hi] at h; cases h; exact ⟨hi, rfl⟩
  · rw [memWrite_of_not hi] at h; cases h

theorem memWrite_error {s : State} {a : Word} {n : Nat} {v : BitVec n} {f : Fault} (h : s.memWrite a v = .error f) :
    ¬ s.inMemory a n ∧ f = s.outOfMemory a := by
  by_cases hi : s.inMemory a n
  · rw [memWrite_of_inMemory hi] at h; cases h
  · rw [memWrite_of_not hi] at h; cases h; exact ⟨hi, rfl⟩

/-! ## `readThrough` and `writeThrough` (R190) -/

theorem readThrough_ok {s t : State} {k : Ctr} {n : Nat} {v : BitVec n} (h : s.readThrough k n = .ok (v, t)) :
    s.memRead (s.ctr k) n = .ok v ∧ t = (s.note (.read (s.ctr k).toNat n)).advance k n := by
  simp only [State.readThrough] at h
  split at h
  · rename_i e; cases h; exact ⟨e, rfl⟩
  · cases h

theorem readThrough_of_memRead {s : State} {k : Ctr} {n : Nat} {v : BitVec n} (h : s.memRead (s.ctr k) n = .ok v) :
    s.readThrough k n = .ok (v, (s.note (.read (s.ctr k).toNat n)).advance k n) := by
  simp only [State.readThrough, h]

theorem readThrough_error {s : State} {k : Ctr} {n : Nat} {f : Fault} (h : s.readThrough k n = .error f) :
    ¬ s.inMemory (s.ctr k) n ∧ f = s.outOfMemory (s.ctr k) := by
  simp only [State.readThrough] at h
  split at h
  · cases h
  · rename_i e; cases h; exact memRead_error e

theorem writeThrough_ok {s t : State} {k : Ctr} {n : Nat} {v : BitVec n} (h : s.writeThrough k v = .ok t) :
    ∃ u, s.memWrite (s.ctr k) v = .ok u ∧ t = u.advance k n := by
  simp only [State.writeThrough] at h
  split at h
  · rename_i u e; cases h; exact ⟨u, e, rfl⟩
  · cases h

theorem writeThrough_error {s : State} {k : Ctr} {n : Nat} {v : BitVec n} {f : Fault}
    (h : s.writeThrough k v = .error f) : ¬ s.inMemory (s.ctr k) n ∧ f = s.outOfMemory (s.ctr k) := by
  simp only [State.writeThrough] at h
  split at h
  · cases h
  · rename_i e; cases h; exact memWrite_error e

/-! ## `finish` and `raise` -/

theorem finish_next {r : Except Fault State} {t : State} : finish r = .next t ↔ r = .ok t := by
  cases r <;> simp [finish, raise]

theorem finish_fault {r : Except Fault State} {f : Fault} : finish r = .fault f ↔ r = .error f := by
  cases r <;> simp [finish, raise]

theorem finish_refused {r : Except Fault State} {q : Refusal} : finish r ≠ .refused q := by
  cases r <;> simp [finish, raise]

@[simp] theorem raise_eq (f : Fault) : raise f = .fault f := rfl

/-! ## `loadBits` (R232) -/

/-- Loading changes memory only. -/
theorem loadBits_eq (s : State) (a : Word) (l : List Bool) : ∃ m, State.loadBits s a l = { s with mem := m } := by
  induction l generalizing s a with
  | nil => exact ⟨s.mem, rfl⟩
  | cons b l ih =>
    simp only [State.loadBits]
    split
    · obtain ⟨m, h⟩ := ih { s with mem := Memory.write s.mem a.toNat b } (a + 1)
      exact ⟨m, h⟩
    · exact ih s (a + 1)

/-- Loading keeps memory in canonical form and adds no bit outside it. -/
theorem loadBits_mem {s : State} (h : Memory.WF s.mem) (hm : ∀ c ∈ s.mem, c.1 < s.cfg.memBits) (a : Word)
    (l : List Bool) :
    Memory.WF (State.loadBits s a l).mem ∧ ∀ c ∈ (State.loadBits s a l).mem, c.1 < s.cfg.memBits := by
  induction l generalizing s a with
  | nil => exact ⟨h, hm⟩
  | cons b l ih =>
    simp only [State.loadBits]
    split
    · rename_i ha
      refine ih (s := { s with mem := Memory.write s.mem a.toNat b }) (Memory.write_wf h _ _) ?_ (a + 1)
      intro c hc
      rcases Memory.mem_write hc with hc | rfl
      · exact hm c hc
      · exact ha
    · exact ih h hm (a + 1)

/-- An image that fits is loaded bit for bit, and every other bit is left alone. -/
theorem loadBits_read {s : State} (h : Memory.WF s.mem) (a : Word) (l : List Bool)
    (hfit : a.toNat + l.length ≤ s.cfg.memBits) (hv : s.cfg.memBits ≤ 2 ^ 64) (c : Nat) :
    (State.loadBits s a l).cell c =
      if h : a.toNat ≤ c ∧ c < a.toNat + l.length then l[c - a.toNat]'(by omega) else s.cell c := by
  induction l generalizing s a with
  | nil => rw [dif_neg (by simp)]; rfl
  | cons b l ih =>
    simp only [List.length_cons] at hfit
    simp only [State.loadBits]
    rw [if_pos (by omega)]
    by_cases hl : l = []
    · subst hl
      have := Memory.read_write h a.toNat c b
      simp only [State.loadBits, State.cell]
      rw [this]
      by_cases hc : c = a.toNat
      · subst hc; rw [if_pos rfl, dif_pos (by simp)]; simp
      · rw [if_neg hc, dif_neg (by simp; omega)]
    · have hpos : 0 < l.length := List.length_pos_of_ne_nil hl
      have ha : (a + 1).toNat = a.toNat + 1 := by
        rw [BitVec.toNat_add]; simp; omega
      rw [ih (s := { s with mem := Memory.write s.mem a.toNat b }) (Memory.write_wf h _ _) (a + 1)
        (by simp only [ha]; omega) hv]
      simp only [ha, State.cell]
      by_cases h1 : c = a.toNat
      · subst h1
        rw [dif_neg (by omega), dif_pos (by simp), Memory.read_write h, if_pos rfl]
        simp
      · by_cases h2 : a.toNat + 1 ≤ c ∧ c < a.toNat + 1 + l.length
        · rw [dif_pos h2, dif_pos (by simp; omega)]
          have : c - a.toNat = (c - (a.toNat + 1)) + 1 := by omega
          simp only [this, List.getElem_cons_succ]
        · rw [dif_neg h2, Memory.read_write h, if_neg h1, dif_neg (by simp; omega)]

end Sys2Proof.Machine
end

