-- ==== Sys2Proof/Laws/Fetch.lean ====
section
/-! SUPPORT. Reading an instruction from memory and decoding its bits agree. -/

namespace Sys2Proof.Machine

/-- The address after `n` bits inside memory: it is the sum, or the top of the address space was reached. -/
theorem toNat_add_inMemory {s : State} {pc : Word} {n : Nat} (hv : s.cfg.memBits ≤ 2 ^ 64) (h : s.inMemory pc n) :
    (pc + BitVec.ofNat 64 n).toNat = pc.toNat + n ∨
      ((pc + BitVec.ofNat 64 n).toNat = 0 ∧ pc.toNat + n = 2 ^ 64 ∧ s.cfg.memBits = 2 ^ 64) := by
  have hle : pc.toNat + n ≤ s.cfg.memBits := h
  have hpc := pc.isLt
  rw [BitVec.toNat_add, BitVec.toNat_ofNat]
  by_cases hlt : pc.toNat + n < 2 ^ 64
  · left; omega
  · right; omega

/-- Reading a field: it lies inside memory, and is followed by the rest from where `pc` then is; or the field's fault ends
the reading. -/
theorem fetchWith_take {α : Type} {s : State} (n : Nat) (g : BitVec n → BitParser α) :
    (s.inMemory s.pc n ∧ fetchWith (.take n g) s =
      fetchWith (g (ofBits n (s.bits s.pc.toNat n))) ((s.note (.read s.pc.toNat n)).advance .pc n)) ∨
    (¬ s.inMemory s.pc n ∧ fetchWith (.take n g) s = (.error (s.outOfMemory s.pc), s)) := by
  by_cases h : s.inMemory s.pc n
  · exact .inl ⟨h, by
      simp only [fetchWith, readThrough_of_memRead (k := .pc) (memRead_of_inMemory h)]; rfl⟩
  · have hr : s.readThrough .pc n = .error (s.outOfMemory s.pc) := by
      simp only [State.readThrough, ctr_pc, memRead_of_not h]
    exact .inr ⟨h, by simp only [fetchWith, hr]⟩

/-- What reading does to the machine, complete or not: `pc` moves on by the bits read, and a device logs what it saw. -/
theorem fetchWith_state {α : Type} (p : BitParser α) (s : State) :
    ∃ (n : Nat) (io : List DeviceAccess),
      (fetchWith p s).2 = { s with pc := s.pc + BitVec.ofNat 64 n, io := io } ∧
      (s.cfg.devices = [] → io = s.io) := by
  induction p generalizing s with
  | done x => exact ⟨0, s.io, by simp [fetchWith], fun _ => rfl⟩
  | take k g ih =>
    rcases fetchWith_take (s := s) k g with ⟨_, h⟩ | ⟨_, h⟩
    · obtain ⟨n, io, h', hio⟩ := ih (ofBits k (s.bits s.pc.toNat k)) ((s.note (.read s.pc.toNat k)).advance .pc k)
      refine ⟨k + n, io, ?_, fun hd => (hio hd).trans (ioAfter_of_none hd _)⟩
      rw [h, h', BitVec.ofNat_add, ← BitVec.add_assoc]; rfl
    · exact ⟨0, s.io, by simp [h], fun _ => rfl⟩

/-- A reading that completes read some bits, all that `p` asks for; they lie inside memory where that ends below the top
of the address space. -/
theorem fetchWith_ok {α : Type} {p : BitParser α} {s t : State} {a : α} (h : fetchWith p s = (.ok a, t)) :
    ∃ l, p.runList l = .ok (a, []) ∧ t = { s with pc := s.pc + BitVec.ofNat 64 l.length, io := t.io } ∧
      (s.cfg.memBits < 2 ^ 64 → s.pc.toNat ≤ s.cfg.memBits → s.pc.toNat + l.length ≤ s.cfg.memBits) := by
  induction p generalizing s with
  | done x =>
    simp only [fetchWith, Prod.mk.injEq, Except.ok.injEq] at h
    obtain ⟨rfl, rfl⟩ := h
    exact ⟨[], rfl, by simp, fun _ h => h⟩
  | take k g ih =>
    rcases fetchWith_take (s := s) k g with ⟨hin, e⟩ | ⟨_, e⟩
    · rw [e] at h
      obtain ⟨l, hl, ht, hb⟩ := ih _ h
      refine ⟨toBits (ofBits k (s.bits s.pc.toNat k)) ++ l, by rw [runList_take]; exact hl, ?_, fun hv hp => ?_⟩
      · rw [ht]
        simp only [List.length_append, toBits_length, BitVec.ofNat_add, ← BitVec.add_assoc]
        rfl
      · have hle : s.pc.toNat + k ≤ s.cfg.memBits := hin
        have hn : (s.pc + BitVec.ofNat 64 k).toNat = s.pc.toNat + k := by
          rcases toNat_add_inMemory (Nat.le_of_lt hv) hin with hn | ⟨_, htop, _⟩ <;> omega
        have hb' : (s.pc + BitVec.ofNat 64 k).toNat + l.length ≤ s.cfg.memBits :=
          hb hv (by show (s.pc + BitVec.ofNat 64 k).toNat ≤ s.cfg.memBits; omega)
        simp only [List.length_append, toBits_length]
        omega
    · rw [e] at h; simp at h

/-- Where the bits inside memory from `pc` on, none of a device, read as `a`, fetching reads `a` and stops after them. -/
theorem fetchWith_of_runList {α : Type} {s : State} (hv : s.cfg.memBits ≤ 2 ^ 64) (p : BitParser α)
    (n : Nat) (a : α) (rest : List Bool) (hin : s.inMemory s.pc n) (hd : s.cfg.touchesDevice s.pc.toNat n = false)
    (h : p.runList (Memory.readBits s.mem s.pc.toNat n) = .ok (a, rest)) :
    rest.length ≤ n ∧ fetchWith p s = (.ok a, s.setCtr .pc (s.pc + BitVec.ofNat 64 (n - rest.length))) := by
  induction p generalizing s n with
  | done x =>
    simp only [runList_done, Except.ok.injEq, Prod.mk.injEq] at h
    obtain ⟨rfl, rfl⟩ := h
    simp [fetchWith, State.setCtr]
  | take k g ih =>
    have hle : s.pc.toNat + n ≤ s.cfg.memBits := hin
    obtain ⟨v, t, e, h⟩ := runList_take_ok h
    have hk : k ≤ n := by
      have := congrArg List.length e
      simp at this; omega
    obtain ⟨m, rfl⟩ : ∃ m, n = k + m := ⟨n - k, by omega⟩
    rw [touchesDevice_append, Bool.or_eq_false_iff] at hd
    rw [Memory.readBits_append] at e
    obtain ⟨e1, rfl⟩ := List.append_inj e (by simp)
    have hink : s.inMemory s.pc k := by show s.pc.toNat + k ≤ _; omega
    have hstep : fetchWith (.take k g) s = fetchWith (g v) (s.advance .pc k) := by
      rcases fetchWith_take (s := s) k g with ⟨_, e⟩ | ⟨hn, _⟩
      · rw [e, bits_of_not_touches hd.1, e1, ofBits_toBits, note_read_of_not_touches hd.1]
      · exact absurd hink hn
    have hrest : (s.advance .pc k).inMemory (s.advance .pc k).pc m ∧
        s.cfg.touchesDevice (s.pc + BitVec.ofNat 64 k).toNat m = false ∧
        Memory.readBits s.mem (s.pc.toNat + k) m = Memory.readBits s.mem (s.pc + BitVec.ofNat 64 k).toNat m := by
      rcases toNat_add_inMemory hv hink with hn | ⟨hn, htop, hM⟩
      · exact ⟨by show (s.pc + BitVec.ofNat 64 k).toNat + m ≤ s.cfg.memBits; omega, by rw [hn]; exact hd.2, by rw [hn]⟩
      · have hm : m = 0 := by omega
        subst hm
        exact ⟨by show (s.pc + BitVec.ofNat 64 k).toNat + 0 ≤ s.cfg.memBits; omega, rfl, rfl⟩
    obtain ⟨hin', hd', e'⟩ := hrest
    rw [e'] at h
    obtain ⟨hlen, hf⟩ := ih v (s := s.advance .pc k) hv m hin' hd' h
    refine ⟨by omega, ?_⟩
    rw [hstep, hf, show k + m - rest.length = k + (m - rest.length) by omega, BitVec.ofNat_add, ← BitVec.add_assoc]
    rfl

/-- Where memory ends below the top of the address space and no device is mapped from `pc` to its end, what was fetched is
what the bits up to that end read as. -/
theorem runList_of_fetchWith {α : Type} {s t : State} (hv : s.cfg.memBits < 2 ^ 64) {p : BitParser α} {a : α}
    (hpc : s.pc.toNat ≤ s.cfg.memBits) (hd : s.cfg.touchesDevice s.pc.toNat (s.cfg.memBits - s.pc.toNat) = false)
    (h : fetchWith p s = (.ok a, t)) :
    ∃ rest, p.runList (Memory.readBits s.mem s.pc.toNat (s.cfg.memBits - s.pc.toNat)) = .ok (a, rest) := by
  induction p generalizing s with
  | done x =>
    simp only [fetchWith, Prod.mk.injEq, Except.ok.injEq] at h
    exact ⟨_, by rw [← h.1]; rfl⟩
  | take k g ih =>
    rcases fetchWith_take (s := s) k g with ⟨hin, e⟩ | ⟨_, e⟩
    · rw [e] at h
      have hle : s.pc.toNat + k ≤ s.cfg.memBits := hin
      have hn : (s.pc + BitVec.ofNat 64 k).toNat = s.pc.toNat + k := by
        rcases toNat_add_inMemory (Nat.le_of_lt hv) hin with hn | ⟨_, htop, _⟩ <;> omega
      obtain ⟨m, hm⟩ : ∃ m, s.cfg.memBits - s.pc.toNat = k + m := ⟨s.cfg.memBits - s.pc.toNat - k, by omega⟩
      rw [hm, touchesDevice_append, Bool.or_eq_false_iff] at hd
      rw [note_read_of_not_touches hd.1, bits_of_not_touches hd.1] at h
      have hrest : (s.advance .pc k).cfg.memBits - (s.advance .pc k).pc.toNat = m := by
        show s.cfg.memBits - (s.pc + BitVec.ofNat 64 k).toNat = m; omega
      have hpc' : (s.advance .pc k).pc.toNat = s.pc.toNat + k := hn
      obtain ⟨rest, hr⟩ := ih _ (s := s.advance .pc k) hv (by rw [hpc']; exact hle)
        (by rw [hrest, hpc']; exact hd.2) h
      refine ⟨rest, ?_⟩
      rw [hrest, hpc', advance_mem] at hr
      rw [hm, Memory.readBits_append]
      generalize hw : ofBits k (Memory.readBits s.mem s.pc.toNat k) = w at hr
      rw [show Memory.readBits s.mem s.pc.toNat k = toBits w by rw [← hw, toBits_ofBits (by simp)], runList_take]
      exact hr
    · rw [e] at h; simp at h

/-- The fault of a fetch that starts at an address of memory, or at its end. -/
theorem fetchWith_error {α : Type} {s : State} (hv : s.cfg.memBits ≤ 2 ^ 64) (p : BitParser α) (f : Fault)
    (hpc : s.pc.toNat ≤ s.cfg.memBits) (h : (fetchWith p s).1 = .error f) : f = .memFault s.cfg.memBits := by
  induction p generalizing s with
  | done x => cases h
  | take k g ih =>
    rcases fetchWith_take (s := s) k g with ⟨hin, e⟩ | ⟨hin, e⟩ <;> rw [e] at h
    · have hle : s.pc.toNat + k ≤ s.cfg.memBits := hin
      refine ih _ (s := (s.note (.read s.pc.toNat k)).advance .pc k) hv ?_ h
      show (s.pc + BitVec.ofNat 64 k).toNat ≤ s.cfg.memBits
      rcases toNat_add_inMemory hv hin with hn | ⟨hn, _, _⟩ <;> omega
    · cases h
      simp only [State.outOfMemory]
      congr 1; omega

end Sys2Proof.Machine
end

