-- ==== Sys2Proof/Laws/PerInstr.lean ====
section
/-! SUPPORT. Facts about instructions as syntax, one lemma for each constructor of `Instr`. -/

namespace Sys2Proof.Laws.EncodeLength

open Sys2Proof

/-- An instruction is at least as long as `return` and at most as long as a three-operand immediate with a 64-bit
constant (R97). -/
def Statement (i : Instr) : Prop := 7 ≤ (encode i).length ∧ (encode i).length ≤ maxInstrBits

/-- An opcode and operands of lengths within these bounds make an instruction of a length within R97's. -/
theorem bounds {l o : List Bool} {n lo hi : Nat} (hl : l.length = n) (ho : lo ≤ o.length ∧ o.length ≤ hi)
    (h : 7 ≤ n + lo ∧ n + hi ≤ maxInstrBits) : 7 ≤ (l ++ o).length ∧ (l ++ o).length ≤ maxInstrBits := by
  rw [List.length_append]; omega

/-- Lengths of operands one after another. -/
theorem operands {l o : List Bool} {a b lo hi : Nat} (hl : a ≤ l.length ∧ l.length ≤ b)
    (ho : lo ≤ o.length ∧ o.length ≤ hi) : a + lo ≤ (l ++ o).length ∧ (l ++ o).length ≤ b + hi := by
  rw [List.length_append]; omega

theorem reg (r : Reg) : 3 ≤ r.bits.length ∧ r.bits.length ≤ 3 := by simp
theorem ctr (c : Ctr) : 2 ≤ c.bits.length ∧ c.bits.length ≤ 2 := by simp
theorem cond (c : Cond) : 3 ≤ c.bits.length ∧ c.bits.length ≤ 3 := by simp
theorem dir (x : Dir) : 1 ≤ x.bits.length ∧ x.bits.length ≤ 1 := by simp
theorem size (z : Size) : 2 ≤ z.bits.length ∧ z.bits.length ≤ 3 := by have := z.bits_length; omega
theorem const (k : Const) : 2 ≤ k.bits.length ∧ k.bits.length ≤ 67 := by have := k.bits_length; omega
theorem addr (a : Addr) : 9 ≤ a.bits.length ∧ a.bits.length ≤ 67 := by have := a.bits_length; omega
theorem shiftval (h : ShiftVal) : 1 ≤ h.bits.length ∧ h.bits.length ≤ 7 := by have := h.bits_length; omega

theorem add2 (d : Reg) (r : Reg) : Statement (.add2 d r) :=
  bounds (toBits_length _) (operands (reg d) (reg r)) (by decide)

theorem add2i (d : Reg) (k : Const) : Statement (.add2i d k) :=
  bounds (toBits_length _) (operands (reg d) (const k)) (by decide)

theorem sub2 (d : Reg) (r : Reg) : Statement (.sub2 d r) :=
  bounds (toBits_length _) (operands (reg d) (reg r)) (by decide)

theorem sub2i (d : Reg) (k : Const) : Statement (.sub2i d k) :=
  bounds (toBits_length _) (operands (reg d) (const k)) (by decide)

theorem cmp (d : Reg) (r : Reg) : Statement (.cmp d r) :=
  bounds (toBits_length _) (operands (reg d) (reg r)) (by decide)

theorem cmpi (d : Reg) (k : Const) : Statement (.cmpi d k) :=
  bounds (toBits_length _) (operands (reg d) (const k)) (by decide)

theorem letr (d : Reg) (r : Reg) : Statement (.letr d r) :=
  bounds (toBits_length _) (operands (reg d) (reg r)) (by decide)

theorem leti (d : Reg) (k : Const) : Statement (.leti d k) :=
  bounds (toBits_length _) (operands (reg d) (const k)) (by decide)

theorem shift (x : Dir) (d : Reg) (h : ShiftVal) : Statement (.shift x d h) :=
  bounds (toBits_length _) (operands (dir x) (operands (reg d) (shiftval h))) (by decide)

theorem readze (c : Ctr) (z : Size) (d : Reg) : Statement (.readze c z d) :=
  bounds (toBits_length _) (operands (ctr c) (operands (size z) (reg d))) (by decide)

theorem readse (c : Ctr) (z : Size) (d : Reg) : Statement (.readse c z d) :=
  bounds (toBits_length _) (operands (ctr c) (operands (size z) (reg d))) (by decide)

theorem jump (a : Addr) : Statement (.jump a) :=
  bounds (toBits_length _) (addr a) (by decide)

theorem jumpif (cc : Cond) (a : Addr) : Statement (.jumpif cc a) :=
  bounds (toBits_length _) (operands (cond cc) (addr a)) (by decide)

theorem or2 (d : Reg) (r : Reg) : Statement (.or2 d r) :=
  bounds (toBits_length _) (operands (reg d) (reg r)) (by decide)

theorem or2i (d : Reg) (k : Const) : Statement (.or2i d k) :=
  bounds (toBits_length _) (operands (reg d) (const k)) (by decide)

theorem and2 (d : Reg) (r : Reg) : Statement (.and2 d r) :=
  bounds (toBits_length _) (operands (reg d) (reg r)) (by decide)

theorem and2i (d : Reg) (k : Const) : Statement (.and2i d k) :=
  bounds (toBits_length _) (operands (reg d) (const k)) (by decide)

theorem write (c : Ctr) (z : Size) (r : Reg) : Statement (.write c z r) :=
  bounds (toBits_length _) (operands (ctr c) (operands (size z) (reg r))) (by decide)

theorem call (a : Addr) : Statement (.call a) :=
  bounds (toBits_length _) (addr a) (by decide)

theorem setctr (c : Ctr) (r : Reg) : Statement (.setctr c r) :=
  bounds (toBits_length _) (operands (ctr c) (reg r)) (by decide)

theorem getctr (c : Ctr) (d : Reg) : Statement (.getctr c d) :=
  bounds (toBits_length _) (operands (ctr c) (reg d)) (by decide)

theorem push (z : Option Size) (r : Reg) : Statement (.push z r) :=
  match z with
  | none => bounds (toBits_length _) (reg r) (by decide)
  | some z => bounds (toBits_length _) (operands (size z) (reg r)) (by decide)

theorem ret : Statement (.ret) := by unfold Statement; decide

theorem add3 (d : Reg) (r : Reg) (t : Reg) : Statement (.add3 d r t) :=
  bounds (toBits_length _) (operands (reg d) (operands (reg r) (reg t))) (by decide)

theorem add3i (d : Reg) (r : Reg) (k : Const) : Statement (.add3i d r k) :=
  bounds (toBits_length _) (operands (reg d) (operands (reg r) (const k))) (by decide)

theorem sub3 (d : Reg) (r : Reg) (t : Reg) : Statement (.sub3 d r t) :=
  bounds (toBits_length _) (operands (reg d) (operands (reg r) (reg t))) (by decide)

theorem sub3i (d : Reg) (r : Reg) (k : Const) : Statement (.sub3i d r k) :=
  bounds (toBits_length _) (operands (reg d) (operands (reg r) (const k))) (by decide)

theorem and3 (d : Reg) (r : Reg) (t : Reg) : Statement (.and3 d r t) :=
  bounds (toBits_length _) (operands (reg d) (operands (reg r) (reg t))) (by decide)

theorem and3i (d : Reg) (r : Reg) (k : Const) : Statement (.and3i d r k) :=
  bounds (toBits_length _) (operands (reg d) (operands (reg r) (const k))) (by decide)

theorem or3 (d : Reg) (r : Reg) (t : Reg) : Statement (.or3 d r t) :=
  bounds (toBits_length _) (operands (reg d) (operands (reg r) (reg t))) (by decide)

theorem or3i (d : Reg) (r : Reg) (k : Const) : Statement (.or3i d r k) :=
  bounds (toBits_length _) (operands (reg d) (operands (reg r) (const k))) (by decide)

theorem xor3 (d : Reg) (r : Reg) (t : Reg) : Statement (.xor3 d r t) :=
  bounds (toBits_length _) (operands (reg d) (operands (reg r) (reg t))) (by decide)

theorem xor3i (d : Reg) (r : Reg) (k : Const) : Statement (.xor3i d r k) :=
  bounds (toBits_length _) (operands (reg d) (operands (reg r) (const k))) (by decide)

theorem asr3 (d : Reg) (r : Reg) (h : ShiftVal) : Statement (.asr3 d r h) :=
  bounds (toBits_length _) (operands (reg d) (operands (reg r) (shiftval h))) (by decide)

theorem reserved1111101 : Statement (.reserved1111101) := by unfold Statement; decide

theorem reserved1111110 : Statement (.reserved1111110) := by unfold Statement; decide

theorem reserved1111111 : Statement (.reserved1111111) := by unfold Statement; decide

end Sys2Proof.Laws.EncodeLength
end

