-- ==== Sys2Proof/Laws/Step.lean ====
section
/-! SUPPORT. What a step can answer. -/

namespace Sys2Proof.Machine

/-- A step that gives a next state ran the meaning of the instruction it fetched, on a running machine. -/
theorem step_next {s t : State} (h : step s = .next t) :
    s.status = .running ∧ ∃ i u, s.fetch = (.ok i, u) ∧ exec i u = .next t := by
  simp only [step] at h
  split at h
  · simp [raise] at h
  · rename_i hs
    split at h
    · rename_i i u hf; exact ⟨hs, i, u, hf, h⟩
    · simp [raise] at h

/-- A step that faults: the machine was faulted already, or the fetch faulted, or the instruction did. -/
theorem step_fault {s : State} {f : Fault} (h : step s = .fault f) :
    s.status = .faulted f ∨
    (s.status = .running ∧ (s.fetch.1 = .error f ∨ ∃ i u, s.fetch = (.ok i, u) ∧ exec i u = .fault f)) := by
  simp only [step] at h
  split at h
  · rename_i g hs; simp only [raise, Host.Outcome.fault.injEq] at h; subst h; exact .inl hs
  · rename_i hs
    split at h
    · rename_i i u hf; exact .inr ⟨hs, .inr ⟨i, u, hf, h⟩⟩
    · rename_i g u hf; simp only [raise, Host.Outcome.fault.injEq] at h; subst h; exact .inr ⟨hs, .inl (by rw [hf])⟩

/-- A running machine runs what it fetches. -/
theorem step_of_fetch {s u : State} {i : Instr} (hs : s.status = .running) (h : s.fetch = (.ok i, u)) :
    step s = exec i u := by
  simp only [step, hs, h]

/-- A running machine whose fetch faults raises that fault. -/
theorem step_of_fetch_error {s : State} {f : Fault} (hs : s.status = .running) (h : s.fetch.1 = .error f) :
    step s = .fault f := by
  obtain ⟨u, hu⟩ : ∃ u, s.fetch = (.error f, u) := ⟨s.fetch.2, by rw [← h]⟩
  simp only [step, hs, hu, raise]

end Sys2Proof.Machine
end

