-- ==== Sys2Proof/Tests/Slice0.lean ====
section
/-! SUPPORT. Tests. Words are written out from the encodings of spec/30_encoding.md R85 to R96; what a step must do is
taken from the worked examples and vectors of spec/95_test_vectors.md (its section is named). The last part has, for
each statement with hypotheses, a state and operands that meet them. -/

namespace Sys2Proof.Tests

open Sys2Proof Sys2Proof.Machine Sys2Proof.Claims

-- One theorem at a time: many at once make the compiler start more threads than the check's memory limit lets it.
set_option Elab.async false


/-! ## WellFormed: the `push` a machine does not have -/

theorem test_wellFormed_refuses_sized_push_on_table1 : (Instr.push (some .b16) .r1).wellFormed .table1 = false := by
  decide
theorem test_wellFormed_refuses_plain_push_on_prose : (Instr.push none .r1).wellFormed .prose = false := by decide
theorem test_wellFormed_admits_push : (Instr.push none .r1).wellFormed .table1 = true ∧
    (Instr.push (some .b16) .r1).wellFormed .prose = true := by decide

/-! ## Decoding: one word or more for each constructor, its fields set apart -/

theorem test_decode_add2 : decode .table1 (toBits 0b0000_011_101#10) = .ok (.add2 .r3 .r5, []) := by decide +kernel
theorem test_decode_add2i :
    decode .table1 (toBits 0b0001_010_10_11001000#17) =
      .ok (.add2i .r2 (.k8 200), []) := by decide +kernel
theorem test_decode_sub2 : decode .table1 (toBits 0b0010_100_001#10) = .ok (.sub2 .r4 .r1, []) := by decide +kernel
theorem test_decode_sub2i :
    decode .table1 (toBits 0b0011_000_0_1#9) =
      .ok (.sub2i .r0 (.k1 1), []) := by decide +kernel
theorem test_decode_cmp : decode .table1 (toBits 0b0100_001_110#10) = .ok (.cmp .r1 .r6, []) := by decide +kernel
theorem test_decode_cmpi :
    decode .table1 (toBits 0b0101_000_110_11111111111111111111111101111111#42) =
      .ok (.cmpi .r0 (.k32 (-129)), []) := by decide +kernel
theorem test_decode_let : decode .table1 (toBits 0b0110_110_011#10) = .ok (.letr .r6 .r3, []) := by decide +kernel
theorem test_decode_leti :
    decode .table1 (toBits 0b0111_000_111_0001001000110100010101100111100010011010101111001101111011110000#74) =
      .ok (.leti .r0 (.k64 0x123456789ABCDEF0), []) := by decide +kernel
theorem test_decode_shift_left :
    decode .table1 (toBits 0b1000_0_001_1#9) =
      .ok (.shift .left .r1 .one, []) := by decide +kernel
theorem test_decode_shift_right :
    decode .table1 (toBits 0b1000_1_010_0_001000#15) =
      .ok (.shift .right .r2 (.amount 8), []) := by decide +kernel
theorem test_decode_readze :
    decode .table1 (toBits 0b10010_11_110_010#13) =
      .ok (.readze .a1 .b32 .r2, []) := by decide +kernel
theorem test_decode_readse :
    decode .table1 (toBits 0b10011_10_01_001#12) =
      .ok (.readse .a0 .b4 .r1, []) := by decide +kernel
theorem test_decode_jump8 :
    decode .table1 (toBits 0b1010_0_11110011#13) =
      .ok (.jump (.a8 (-13)), []) := by decide +kernel
theorem test_decode_jump16 :
    decode .table1 (toBits 0b1010_10_0000000100101100#22) =
      .ok (.jump (.a16 300), []) := by decide +kernel
theorem test_decode_jumpif :
    decode .table1 (toBits 0b1011_100_0_11100111#16) =
      .ok (.jumpif .gt (.a8 (-25)), []) := by decide +kernel
theorem test_decode_or2 : decode .table1 (toBits 0b110000_010_111#12) = .ok (.or2 .r2 .r7, []) := by decide +kernel
theorem test_decode_or2i :
    decode .table1 (toBits 0b110001_010_10_10000000#19) =
      .ok (.or2i .r2 (.k8 0x80), []) := by decide +kernel
theorem test_decode_and2 : decode .table1 (toBits 0b110010_111_001#12) = .ok (.and2 .r7 .r1, []) := by decide +kernel
theorem test_decode_and2i :
    decode .table1 (toBits 0b110011_011_0_1#11) =
      .ok (.and2i .r3 (.k1 1), []) := by decide +kernel
theorem test_decode_write1 :
    decode .table1 (toBits 0b110100_10_00_001#13) =
      .ok (.write .a0 .b1 .r1, []) := by decide +kernel
theorem test_decode_write64 :
    decode .table1 (toBits 0b110100_01_111_001#14) =
      .ok (.write .sp .b64 .r1, []) := by decide +kernel
theorem test_decode_call :
    decode .table1 (toBits 0b110101_110_00000000000000010001000101110000#41) =
      .ok (.call (.a32 70000), []) := by decide +kernel
theorem test_decode_setctr :
    decode .table1 (toBits 0b110110_00_010#11) =
      .ok (.setctr .pc .r2, []) := by decide +kernel
theorem test_decode_getctr :
    decode .table1 (toBits 0b110111_01_110#11) =
      .ok (.getctr .sp .r6, []) := by decide +kernel
theorem test_decode_push : decode .table1 (toBits 0b1110000_110#10) = .ok (.push none .r6, []) := by decide +kernel
theorem test_decode_return : decode .table1 (toBits 0b1110001#7) = .ok (.ret, []) := by decide +kernel
theorem test_decode_add3 :
    decode .table1 (toBits 0b1110010_001_011_110#16) =
      .ok (.add3 .r1 .r3 .r6, []) := by decide +kernel
theorem test_decode_add3i :
    decode .table1 (toBits 0b1110011_111_110_110_00000000000000000000000100000000#48) =
      .ok (.add3i .r7 .r6 (.k32 256), []) := by decide +kernel
theorem test_decode_sub3 :
    decode .table1 (toBits 0b1110100_101_010_001#16) =
      .ok (.sub3 .r5 .r2 .r1, []) := by decide +kernel
theorem test_decode_sub3i :
    decode .table1 (toBits 0b1110101_011_100_10_00010000#23) =
      .ok (.sub3i .r3 .r4 (.k8 16), []) := by decide +kernel
theorem test_decode_and3 :
    decode .table1 (toBits 0b1110110_100_001_010#16) =
      .ok (.and3 .r4 .r1 .r2, []) := by decide +kernel
theorem test_decode_and3i :
    decode .table1 (toBits 0b1110111_000_001_110_11111111111111110000000000000000#48) =
      .ok (.and3i .r0 .r1 (.k32 0xffff0000), []) := by decide +kernel
theorem test_decode_or3 :
    decode .table1 (toBits 0b1111000_011_001_010#16) =
      .ok (.or3 .r3 .r1 .r2, []) := by decide +kernel
theorem test_decode_or3i :
    decode .table1 (toBits 0b1111001_100_101_10_01010101#23) =
      .ok (.or3i .r4 .r5 (.k8 0x55), []) := by decide +kernel
theorem test_decode_xor3 :
    decode .table1 (toBits 0b1111010_110_000_111#16) =
      .ok (.xor3 .r6 .r0 .r7, []) := by decide +kernel
theorem test_decode_xor3i :
    decode .table1 (toBits 0b1111011_000_001_111_1111111111111111111111111111111111111111111111111111111111111111#80) =
      .ok (.xor3i .r0 .r1 (.k64 (-1)), []) := by decide +kernel
theorem test_decode_asr3 :
    decode .table1 (toBits 0b1111100_011_101_0_000010#20) =
      .ok (.asr3 .r3 .r5 (.amount 2), []) := by decide +kernel
theorem test_decode_asr3_by_one :
    decode .table1 (toBits 0b1111100_000_001_1#14) =
      .ok (.asr3 .r0 .r1 .one, []) := by decide +kernel
theorem test_decode_reserved1111101 :
    decode .table1 (toBits 0b1111101#7) =
      .ok (.reserved1111101, []) := by decide +kernel
theorem test_decode_reserved1111110 :
    decode .table1 (toBits 0b1111110#7) =
      .ok (.reserved1111110, []) := by decide +kernel
theorem test_decode_reserved1111111 :
    decode .table1 (toBits 0b1111111#7) =
      .ok (.reserved1111111, []) := by decide +kernel
theorem test_decode_push_prose : decode .prose (toBits 0b1110000_101_001#13) = .ok (.push (some .b16) .r1, []) := by
  decide +kernel

/-- R112, R80: no padding between instructions; what follows is left for the next. -/
theorem test_decode_leaves_the_rest :
    decode .table1 (toBits 0b1110001#7 ++ [true, false, true]) = .ok (.ret, [true, false, true]) := by decide +kernel

/-- A bit string that ends inside an operand. -/
theorem test_decode_truncated : decode .table1 (toBits 0b0000_011_10#9) = .error .truncated := by decide +kernel

/-- R101: the first seven bits in the opcode table's numbering, bit 6 first. -/
theorem test_table_word_jumpif : decodeTableWord 8 0b1011111 = some (.jumpif .v (.a8 0)) := by decide +kernel
theorem test_table_word_getctr : decodeTableWord 8 0b1101111 = some (.getctr .a0 .r0) := by decide +kernel

/-! ## Steps -/

/-- The vectors' start state: `MEMBITS = 4096`, `pc = 0`, flags `z=0 c=1 v=1 n=0`, and `r0`, `r1`, `r2` as given. -/
def start (x y u : Word) : State :=
  { State.reset with flags := ⟨false, true, true, false⟩, regs := { Regs.all 0 with r0 := x, r1 := y, r2 := u } }

/-- A step of `s` with the bits `l` at `pc` answers a next state, and `p` holds of it. -/
def runs (l : List Bool) (s : State) (p : State → Bool) : Bool :=
  match step (s.withNextInstr l) with
  | .next t => p t
  | _ => false

/-- A step of `s` with the bits `l` at `pc` raises the fault `f`. -/
def stops (l : List Bool) (s : State) (f : Fault) : Bool :=
  match step (s.withNextInstr l) with
  | .fault g => g == f
  | _ => false

/-- The flags `z`, `c`, `v`, `n` in the order the vectors print them. -/
def isFlags (t : State) (z c v n : Bool) : Bool := t.flags == ⟨z, c, v, n⟩

/-- `mem[1000..1015] = 1010010111000011`, the memory of the vectors of section 3.6. -/
def sample : Memory := Memory.writeBits [] 1000 (toBits 0b1010010111000011#16)

/-- 3.1. -/
theorem test_add2_same_register : runs (toBits 0b0000_000_000#10) (start 0x8000000000000000 0 0)
    (fun t => t.reg .r0 == 0 && isFlags t true true true false && t.pc == 10) = true := by decide +kernel
/-- 3.1. -/
theorem test_add2_overflow : runs (toBits 0b0000_000_001#10) (start 0x7FFFFFFFFFFFFFFF 1 0)
    (fun t => t.reg .r0 == 0x8000000000000000 && isFlags t false false true true) = true := by decide +kernel
/-- 3.1. -/
theorem test_add2i_zero_extends : runs (toBits 0b0001_010_10_11111111#17) (start 0 0 0xFFFFFFFFFFFFFFFF)
    (fun t => t.reg .r2 == 0xFE && isFlags t false true false false && t.pc == 17) = true := by decide +kernel
/-- 3.1. -/
theorem test_sub2_borrows : runs (toBits 0b0010_000_001#10) (start 5 7 0)
    (fun t => t.reg .r0 == 0xFFFFFFFFFFFFFFFE && isFlags t false true false true) = true := by decide +kernel
/-- 3.1. -/
theorem test_sub2_overflow : runs (toBits 0b0010_000_001#10) (start 0x8000000000000000 1 0)
    (fun t => t.reg .r0 == 0x7FFFFFFFFFFFFFFF && isFlags t false false true false) = true := by decide +kernel
/-- 3.1. -/
theorem test_sub2i_zero_extends : runs (toBits 0b0011_000_10_10000000#17) (start 0x7F 0 0)
    (fun t => t.reg .r0 == 0xFFFFFFFFFFFFFFFF && isFlags t false true false true) = true := by decide +kernel
/-- 3.1. -/
theorem test_cmp_writes_no_register : runs (toBits 0b0100_000_001#10) (start 0x7FFFFFFFFFFFFFFF 0x8000000000000000 0)
    (fun t => t.regs == (start 0x7FFFFFFFFFFFFFFF 0x8000000000000000 0).regs && isFlags t false true true true) = true := by decide +kernel
/-- S7. -/
theorem test_cmpi_sign_extends : runs (toBits 0b0101_000_10_11111111#17) (start 0 0 0)
    (fun t => isFlags t false true false false && t.reg .r0 == 0) = true := by decide +kernel
/-- 2.4. -/
theorem test_cmpi_one_bit_form_is_one : runs (toBits 0b0101_000_0_1#9) (start 1 0 0)
    (fun t => isFlags t true false false false) = true := by decide +kernel
/-- 3.1. -/
theorem test_add3_overflow : runs (toBits 0b1110010_001_001_001#16) (start 0 0x4000000000000000 0)
    (fun t => t.reg .r1 == 0x8000000000000000 && isFlags t false false true true && t.pc == 16) = true := by decide +kernel
/-- 3.1. -/
theorem test_add3i_carry : runs (toBits 0b1110011_000_001_0_1#15) (start 9 0xFFFFFFFFFFFFFFFF 0)
    (fun t => t.reg .r0 == 0 && isFlags t true true false false && t.pc == 15) = true := by decide +kernel
/-- 3.1. -/
theorem test_sub3_operand_order : runs (toBits 0b1110100_000_001_010#16) (start 0 3 4)
    (fun t => t.reg .r0 == 0xFFFFFFFFFFFFFFFF && isFlags t false true false true) = true := by decide +kernel
/-- 3.1. -/
theorem test_sub3i_overflow : runs (toBits 0b1110101_000_001_0_1#15) (start 0 0x8000000000000000 0)
    (fun t => t.reg .r0 == 0x7FFFFFFFFFFFFFFF && isFlags t false false true false) = true := by decide +kernel
/-- 3.2. -/
theorem test_or2_keeps_v : runs (toBits 0b110000_000_001#12) (start 0xF0 0xF 0)
    (fun t => t.reg .r0 == 0xFF && isFlags t false false true false && t.pc == 12) = true := by decide +kernel
/-- 3.2. -/
theorem test_or2i_zero_extends : runs (toBits 0b110001_010_10_10000000#19) (start 0 0 1)
    (fun t => t.reg .r2 == 0x81 && isFlags t false false true false) = true := by decide +kernel
/-- 3.2. -/
theorem test_and2_to_zero : runs (toBits 0b110010_000_001#12) (start 0xF0 0xF 0)
    (fun t => t.reg .r0 == 0 && isFlags t true false true false) = true := by decide +kernel
/-- 3.2. -/
theorem test_and2i_clears_upper_bits : runs (toBits 0b110011_001_10_11111111#19) (start 0 0x123456789ABCDEF0 0)
    (fun t => t.reg .r1 == 0xF0 && isFlags t false false true false) = true := by decide +kernel
/-- 3.2. -/
theorem test_and3 : runs (toBits 0b1110110_000_001_010#16) (start 0 0x8000000000000005 0x8000000000000003)
    (fun t => t.reg .r0 == 0x8000000000000001 && isFlags t false false true true) = true := by decide +kernel
/-- 3.2. -/
theorem test_and3i_zero_extends : runs (toBits 0b1110111_000_001_110_11111111111111110000000000000000#48) (start 0 0x123456789ABCDEF0 0)
    (fun t => t.reg .r0 == 0x9ABC0000 && t.pc == 48) = true := by decide +kernel
/-- 3.2. -/
theorem test_or3 : runs (toBits 0b1111000_000_001_010#16) (start 0 1 0x8000000000000000)
    (fun t => t.reg .r0 == 0x8000000000000001 && isFlags t false false true true) = true := by decide +kernel
/-- 3.2. -/
theorem test_or3i : runs (toBits 0b1111001_000_001_10_01010101#23) (start 0 0xAA 0)
    (fun t => t.reg .r0 == 0xFF && isFlags t false false true false && t.pc == 23) = true := by decide +kernel
/-- 3.2. -/
theorem test_xor3 : runs (toBits 0b1111010_000_001_010#16) (start 0 0xFF 0xF)
    (fun t => t.reg .r0 == 0xF0 && isFlags t false false true false) = true := by decide +kernel
/-- S6. -/
theorem test_xor3i_minus_one_is_not : runs (toBits 0b1111011_000_001_111_1111111111111111111111111111111111111111111111111111111111111111#80) (start 0 0x00FF00FF00FF00FF 0)
    (fun t => t.reg .r0 == 0xFF00FF00FF00FF00 && t.pc == 80) = true := by decide +kernel
/-- 3.3. -/
theorem test_let_keeps_flags : runs (toBits 0b0110_000_001#10) (start 1 0xABCDEF 0)
    (fun t => t.reg .r0 == 0xABCDEF && isFlags t false true true false && t.pc == 10) = true := by decide +kernel
/-- 2.4. -/
theorem test_leti_sign_extends : runs (toBits 0b0111_010_110_10000000000000000000000000000000#42) (start 0 0 7)
    (fun t => t.reg .r2 == 0xFFFFFFFF80000000 && isFlags t false true true false) = true := by decide +kernel
/-- 3.4. -/
theorem test_shift_left_63 : runs (toBits 0b1000_0_001_0_111111#15) (start 0 3 0)
    (fun t => t.reg .r1 == 0x8000000000000000 && isFlags t false true true true && t.pc == 15) = true := by decide +kernel
/-- 3.4. -/
theorem test_shift_right_zeros_enter : runs (toBits 0b1000_1_010_0_001000#15) (start 0 0 0xFFFFFFFFFFFFFF80)
    (fun t => t.reg .r2 == 0xFFFFFFFFFFFFFF && isFlags t false true true false) = true := by decide +kernel
/-- 3.4. -/
theorem test_asr3_copies_sign : runs (toBits 0b1111100_000_001_0_111111#20) (start 0 0x8000000000000000 0)
    (fun t => t.reg .r0 == 0xFFFFFFFFFFFFFFFF && isFlags t false false true true) = true := by decide +kernel
/-- 3.4. -/
theorem test_asr3_by_one : runs (toBits 0b1111100_000_001_1#14) (start 9 1 0)
    (fun t => t.reg .r0 == 0 && isFlags t true true true false && t.pc == 14) = true := by decide +kernel
/-- 3.5. -/
theorem test_jump_wraps : runs (toBits 0b1010_10_1111111100111000#22) { start 0 0 0 with pc := 100 }
    (fun t => t.pc == 18446744073709551538) = true := by decide +kernel
/-- 3.5. -/
theorem test_jumpif_taken : runs (toBits 0b1011_001_0_11100111#16) { start 0 0 0 with pc := 26 }
    (fun t => t.pc == 17 && isFlags t false true true false) = true := by decide +kernel
/-- 3.5. -/
theorem test_jumpif_not_taken : runs (toBits 0b1011_000_0_11100111#16) { start 0 0 0 with pc := 26 }
    (fun t => t.pc == 42) = true := by decide +kernel
/-- 3.5. -/
theorem test_call_is_absolute : runs (toBits 0b110101_10_0000000100101100#24) { start 0 0 0 with pc := 100 }
    (fun t => t.reg .r7 == 0x7C && t.pc == 300) = true := by decide +kernel
/-- 3.5. -/
theorem test_return : runs (toBits 0b1110001#7) { (start 0 0 0).setReg .r7 0x73 with pc := 100 }
    (fun t => t.pc == 115 && t.reg .r7 == 0x73) = true := by decide +kernel
/-- 3.6. -/
theorem test_readze_most_significant_first : runs (toBits 0b10010_10_101_001#13) { start 0 0 0 with a0 := 1000, mem := sample }
    (fun t => t.reg .r1 == 0xA5C3 && t.a0 == 1016 && t.pc == 13) = true := by decide +kernel
/-- 3.6. -/
theorem test_readse_one_bit : runs (toBits 0b10011_10_00_001#12) { start 0 0 0 with a0 := 1000, mem := sample }
    (fun t => t.reg .r1 == 0xFFFFFFFFFFFFFFFF && t.a0 == 1001 && t.pc == 12) = true := by decide +kernel
/-- 3.6. -/
theorem test_write_only_the_addressed_bits : runs (toBits 0b110100_10_01_001#13) { start 0 0xFA 0 with a0 := 1001, mem := [] }
    (fun t => Memory.readBits t.mem 1000 8 == [false, true, false, true, false, false, false, false] && t.a0 == 1005) = true := by decide +kernel
/-- 3.6. -/
theorem test_setctr_accepts_every_value : runs (toBits 0b110110_11_001#11) (start 0 0xFFFFFFFFFFFFFFFF 0)
    (fun t => t.a1 == 18446744073709551615 && t.pc == 11) = true := by decide +kernel
/-- 3.6. -/
theorem test_setctr_pc_jumps : runs (toBits 0b110110_00_010#11) (start 0 0 0x1F4)
    (fun t => t.pc == 500) = true := by decide +kernel
/-- 3.6. -/
theorem test_getctr_pc_reads_a : runs (toBits 0b110111_00_001#11) { start 0 0 0 with pc := 100 }
    (fun t => t.reg .r1 == 0x6F && t.pc == 111) = true := by decide +kernel
/-- 3.6. -/
theorem test_push : runs (toBits 0b1110000_001#10) { start 0 0x8123456789ABCDEF 0 with sp := 4096 }
    (fun t => t.sp == 4032 && Memory.readBits t.mem 4032 64 == toBits 0x8123456789ABCDEF#64 && t.pc == 10) = true := by decide +kernel
/-- 3.6. -/
theorem test_pop_is_readze_sp : runs (toBits 0b10010_01_100_000#13) { start 0 0 0 with sp := 1000, mem := sample }
    (fun t => t.reg .r0 == 0xA5 && t.sp == 1008) = true := by decide +kernel
/-- 3.6, `PUSH_FORM = prose`; 3.7, a push whose address wraps. -/
theorem test_push_prose_and_fault : runs (toBits 0b1110000_101_001#13)
    { start 0 0x1234 0 with sp := 4096, cfg := { resetConfig with pushForm := .prose } }
    (fun t => t.sp == 4080 && Memory.readBits t.mem 4080 16 == toBits 0x1234#16 && t.pc == 13) = true ∧
    stops (toBits 0b1110000_001#10) { start 0 1 0 with sp := 32 } (.memFault 18446744073709551584) = true := by
  decide +kernel

/-! ## Faults (3.7) -/

theorem test_fault_readse_at_the_top : stops (toBits 0b10011_11_111_001#13) { start 0 7 0 with a1 := 18446744073709551615 }
    (.memFault 18446744073709551615) = true := by decide +kernel
theorem test_fault_write_across_the_end : stops (toBits 0b110100_10_101_001#14) { start 0 0xFFFF 0 with a0 := 4081 }
    (.memFault 4096) = true := by decide +kernel
theorem test_fault_reserved1111101 : stops (toBits 0b1111101#7) (start 0 0 0)
    (.reservedOpcode 0b1111101#7) = true := by decide +kernel
theorem test_fault_reserved1111110 : stops (toBits 0b1111110#7) (start 0 0 0)
    (.reservedOpcode 0b1111110#7) = true := by decide +kernel
theorem test_fault_reserved1111111 : stops (toBits 0b1111111#7) (start 0 0 0)
    (.reservedOpcode 0b1111111#7) = true := by decide +kernel
theorem test_fault_fetch_across_the_end : stops (toBits 0b0111_000_10_00010001#17) { start 9 0 0 with pc := 4090 }
    (.memFault 4096) = true := by decide +kernel
theorem test_fault_fetch_outside_memory : stops (toBits 0b1010_0_00000000#13) { start 0 0 0 with pc := 5000 }
    (.memFault 5000) = true := by decide +kernel

/-- The last 8 bits of memory, then `a0 = MEMBITS`; and 8 bits of which the last two are outside. -/
theorem test_readze_at_the_end : runs (toBits 0b10010_10_100_001#13)
    { start 0 7 0 with a0 := 4088, mem := Memory.writeBits [] 4088 (toBits 0b01011010#8) }
    (fun t => t.reg .r1 == 0x5A && t.a0 == 4096) = true ∧
    stops (toBits 0b10010_10_100_001#13) { start 0 7 0 with a0 := 4090 } (.memFault 4096) = true := by decide +kernel

/-- 3.7, `MEMBITS = 14`: after `let r0 r1` the bits `1111` end memory: a fetch fault, not a reserved opcode. -/
theorem test_fetch_fault_before_reserved : stops (toBits 0b1111#4)
    { start 0 0 0 with pc := 10, cfg := { resetConfig with memBits := 14 } } (.memFault 14) = true := by decide +kernel

/-- `readze a1 8 r1` at 100, whose access crosses the end of memory. -/
def dataFault : State := { start 0 7 0 with pc := 100, a1 := 4090 }.withNextInstr (toBits 0b10010_11_100_001#13)

/-- R211: `pc` of the faulted machine: `a` for a data access; 7 bits on for a reserved code word; past the fields read, here
opcode, register and the three prefix bits of a constant whose payload crosses the end, for a fetch. -/
theorem test_faulted_pc : dataFault.advanceMachine.pc = 113 ∧
    dataFault.advanceMachine.status = .faulted (.memFault 4096) ∧
    ((start 0 0 0).withNextInstr (toBits 0b1111110#7)).advanceMachine.pc = 7 ∧
    ({ start 9 0 0 with pc := 4080 }.withNextInstr (toBits 0b0111_000_110#10)).advanceMachine.pc = 4090 := by
  decide +kernel

/-! ## Devices (R58) -/

/-- `readze a0 8 r1` with a device at 2000..2063 and `n` bits of it before the address in `a0`. -/
def onDevice (n : Nat) : State :=
  { start 0 0xA5 0 with
    a0 := BitVec.ofNat 64 (2000 - n), cfg := { resetConfig with devices := [⟨2000, 64⟩] } }.withNextInstr
    (toBits 0b10010_10_100_001#13)

/-- One bit of the device is enough for it to see the access whole; 8 bits before it, it sees nothing. -/
theorem test_device_sees_accesses :
    runs [] (onDevice 7) (fun t => t.io == [.read 1993 8] && t.a0 == 2001 && t.mem == (onDevice 7).mem) = true ∧
    runs [] (onDevice 8) (fun t => t.io == [] && t.reg .r1 == 0) = true ∧
    runs (toBits 0b110100_10_01_001#13) (onDevice 0)
      (fun t => t.io == [.write 2000 [false, true, false, true]]) = true := by
  refine ⟨rfl, rfl, rfl⟩

/-! ## The assembler: the source's example program (S4, R103, R106, R111) -/

theorem test_assemble_S4 : assemble .table1
    "let r0 17 ; a comment\nboucle:\nsub2i r0 1\njumpif nz boucle\n" =
      .ok (toBits 0b0111_000_10_00010001#17 ++ toBits 0b0011_000_0_1#9 ++ toBits 0b1011_001_0_11100111#16) := by
  decide +kernel
theorem test_assemble_const : assemble .table1 ".const 3 5\n.const 8 0xff" = .ok (toBits 0b101_11111111#11) := by
  decide +kernel
theorem test_assemble_const_does_not_fit : assemble .table1 ".const 3 8" = .error (.constDoesNotFit 1) := by
  decide +kernel

/-! ## States and operands that meet the hypotheses of the statements -/

/-- A running machine of 4096 memory bits that ends with `n` bits of 1, with `a0` at the last eight bits, `a1` and `pc` at the
address after the last, and `sp` at the top. -/
def edge (n : Nat) : State :=
  { start 0 0xA5 0 with a0 := 4088, a1 := 4096, sp := 4096, pc := 4096, mem := Memory.writeBits [] (4096 - n) (List.replicate n true) }

theorem witness_ShiftAmountClauses : shiftAmount (.amount 0) = 0 ∧ 1 ≤ shiftAmount .one ∧
    1 ≤ shiftAmount (.amount 63) ∧ shiftAmount (.amount 63) ≤ 63 ∧ ¬ shiftAmount (.amount 63) ≤ 62 ∧
    0 + shiftAmount (.amount 63) < 64 ∧ ¬ 1 + shiftAmount (.amount 63) < 64 := by decide
theorem witness_ShiftZeroCarryClauses : (start 0 0 0).cfg.cShift0 = .const false ∧
    ({ start 0 0 0 with cfg := { resetConfig with cShift0 := .keep } } : State).cfg.cShift0 = .keep := by decide
theorem witness_ConditionClauses : TableThree (start 0 0 0).flags .neq ∧ ¬ TableThree (start 0 0 0).flags .eq := by
  simp [TableThree, start]
theorem witness_EncodesWellFormed : (Instr.push none .r1).wellFormed (edge 0).cfg.pushForm = true := by decide
/-- `MemRead` and `MemWrite` of 1 and of 64 bits at the end of memory, and one bit further. -/
theorem witness_MemReadMemWrite : Memory.WF (edge 8).mem ∧ (4095#64).toNat + 1 ≤ (edge 8).cfg.memBits ∧
    (4032#64).toNat + 64 ≤ (edge 8).cfg.memBits ∧ (edge 8).cfg.memBits < (4096#64).toNat + 1 ∧
    (edge 8).cfg.memBits < (4033#64).toNat + 64 := by decide +kernel
theorem witness_WideReadIsTwoNarrowReads : (edge 8).cfg.Valid ∧ 1 ≤ 32 ∧ 1 ≤ 32 ∧ 32 + 32 ≤ 64 ∧
    (4032#64).toNat + (32 + 32) ≤ (edge 8).cfg.memBits := by decide
/-- `readze`, `readse` and `write` at the last eight bits, and of one bit after them. -/
theorem witness_ReadsAndWrites : Memory.WF (edge 8).mem ∧
    ((edge 8).ctr .a0).toNat + sizeBits .b8 ≤ (edge 8).cfg.memBits ∧
    (edge 8).cfg.memBits < ((edge 8).ctr .a1).toNat + sizeBits .b1 := by decide +kernel
theorem witness_PushStoresBelowSp : Memory.WF (edge 8).mem ∧
    (pushAddr (edge 8) none).toNat + pushBits none ≤ (edge 8).cfg.memBits ∧
    (edge 8).cfg.memBits < (pushAddr { edge 8 with sp := 4097 } none).toNat + pushBits none ∧
    (pushAddr (edge 8) (some .b16)).toNat + pushBits (some .b16) ≤ (edge 8).cfg.memBits ∧
    (edge 8).cfg.memBits < (pushAddr { edge 8 with sp := 15 } (some .b16)).toNat + pushBits (some .b16) := by
  decide +kernel
theorem witness_PopUndoesPush : Memory.WF (edge 8).mem ∧ ((edge 8).sp - 64).toNat + 64 ≤ (edge 8).cfg.memBits ∧
    (edge 8).cfg.touchesDevice ((edge 8).sp - 64).toNat 64 = false := by decide +kernel
theorem witness_ReservedOpcodesStop : reservedBits .reserved1111110 = some 0b1111110#7 ∧ reservedBits .ret = none := by
  decide
theorem witness_ExecutionFaults : reservedBits .reserved1111101 = some 0b1111101#7 ∧
    dataAccess (edge 0) (.readze .a1 .b1 .r0) = some (4096, 1) ∧ (edge 0).cfg.memBits < (4096#64).toNat + 1 ∧
    OutOfRange (edge 0) 4096 = .memFault 4096 := by decide +kernel
theorem witness_FetchFault : (edge 0).cfg.Valid ∧ (edge 0).fetch.1 = .error (.memFault 4096) :=
  ⟨by decide, rfl⟩
theorem witness_FetchCompletesInsideMemory : (edge 0).cfg.Valid ∧
    ({ edge 0 with pc := 4016 } : State).pc.toNat + 80 ≤ (edge 0).cfg.memBits ∧
    (edge 0).cfg.touchesDevice 4016 80 = false := by decide +kernel
/-- Six bits before the end, all of them 1: the beginning of a reserved opcode. -/
theorem witness_FetchFaultPrecedesEveryOther : (edge 6).cfg.Valid ∧ (edge 6).cfg.memBits < 2 ^ 64 ∧
    (edge 6).status = .running ∧ (edge 6).cfg.memBits < ({ edge 6 with pc := 4090 } : State).pc.toNat + 7 := by
  decide
/-- The first 16 of the 17 bits of `add2i r0 17` in a memory of 16: the opcode is inside, the last operand bit is not. -/
theorem witness_OperandBitOutsideMemory :
    let s : State := { start 0 0 0 with
      mem := Memory.writeBits [] 0 (toBits 0b0001_000_10_0001000#16), cfg := { resetConfig with memBits := 16 } }
    let i : Instr := .add2i .r0 (.k8 17)
    s.cfg.Valid ∧ s.status = .running ∧ i.wellFormed s.cfg.pushForm = true ∧
      s.cfg.memBits < s.pc.toNat + (encode i).length ∧
      s.cfg.touchesDevice s.pc.toNat (s.cfg.memBits - s.pc.toNat) = false ∧
      Memory.readBits s.mem s.pc.toNat (s.cfg.memBits - s.pc.toNat) <+: encode i := by decide +kernel
theorem witness_FaultedMachineHasNoStep :
    ((edge 0).enterFault (.memFault 4096)).status = .faulted (.memFault 4096) := rfl
/-- A fetch that faults, and an instruction that is fetched and faults: its faulted machine is in `test_faulted_pc`. -/
theorem witness_FaultsArePrecise : step (edge 0) = .fault (.memFault 4096) ∧ (edge 0).status = .running ∧
    (edge 0).fetch.1 = .error (.memFault 4096) ∧ dataFault.status = .running ∧
    step dataFault = .fault (.memFault 4096) ∧ (∃ t, dataFault.fetch = (.ok (.readze .a1 .b8 .r1), t)) ∧
    (edge 0).cfg.devices = [] := ⟨rfl, rfl, rfl, rfl, rfl, ⟨_, rfl⟩, rfl⟩

/-- A machine with `readze pc 8 r0`, the bits `10100101` after it, and then a `jump` to itself (R199(b), R239). -/
def inline : State := (start 0 0 0).withNextInstr
  (toBits 0b10010_00_100_000#13 ++ toBits 0b10100101#8 ++ toBits 0b1010_0_11110011#13)

theorem witness_StandsAtPc : inline.cfg.Valid ∧ inline.status = .running ∧ StandsAtPc inline (.readze .pc .b8 .r0) :=
  ⟨by decide +kernel, by decide +kernel, by decide +kernel, by decide +kernel, by decide +kernel, by decide +kernel⟩
theorem witness_StepRunsWhatIsFetched : inline.fetch.1 = .ok (.readze .pc .b8 .r0) := by decide +kernel
theorem witness_StepRunsDecodedInstruction : inline.pc.toNat + 20 ≤ inline.cfg.memBits ∧
    inline.cfg.touchesDevice inline.pc.toNat 20 = false ∧
    decode inline.cfg.pushForm (Memory.readBits inline.mem inline.pc.toNat 20) =
      .ok (.readze .pc .b8 .r0, toBits 0b1010010#7) := by decide +kernel
/-- Inline data that ends exactly at `MEMBITS`. -/
theorem witness_ReadThroughPcTakesInlineData :
    let s : State := { start 0 0 0 with pc := 4075 }.withNextInstr (toBits 0b10010_00_100_000#13 ++ toBits 0b10100101#8)
    StandsAtPc s (.readze .pc .b8 .r0) ∧
    s.pc.toNat + (encode (.readze .pc .b8 .r0)).length + sizeBits .b8 = s.cfg.memBits ∧
    runs [] s (fun t => t.pc == 4096 && t.reg .r0 == 0xA5) = true :=
  ⟨⟨by decide +kernel, by decide +kernel, by decide +kernel, by decide +kernel⟩, by decide +kernel, by decide +kernel⟩
theorem witness_GetctrPc : StandsAtPc ((start 0 0 0).withNextInstr (encode (.getctr .pc .r1))) (.getctr .pc .r1) :=
  ⟨by decide +kernel, by decide +kernel, by decide +kernel, by decide +kernel⟩
/-- An image of 16 bits for a machine of 16: it fills memory. -/
theorem witness_LaunchHoldsImage :
    let any : State := { start 1 2 3 with cfg := { resetConfig with memBits := 16 }, mem := [(3, true)] }
    any.cfg.Valid ∧ Memory.WF any.mem ∧ (encode (.add3 .r1 .r2 .r4)).length ≤ any.cfg.memBits := by decide +kernel
theorem witness_LaunchRunsFirstInstruction :
    let any : State := { (start 1 2 3).enterFault (.memFault 7) with cfg := { resetConfig with memBits := 16 } }
    any.cfg.Valid ∧ Memory.WF any.mem ∧ (Instr.getctr .pc .r1).wellFormed any.cfg.pushForm = true ∧
      (encode (.getctr .pc .r1) ++ toBits 0b10101#5).length ≤ any.cfg.memBits ∧
      any.cfg.touchesDevice 0 (encode (.getctr .pc .r1) ++ toBits 0b10101#5).length = false := by decide +kernel
theorem witness_LaunchMeetsInvariant : ((edge 8).enterFault (.memFault 4096)).Inv := by decide +kernel
theorem witness_StepKeepsInvariant : inline.Inv ∧ inline.cfg.devices = [] ∧ runs [] inline (fun t => decide (t.pc = 21)) = true := by
  decide +kernel
theorem witness_EndedRunStepsToItself : ({ inline with pc := 21 } : State).ended = true := by decide +kernel
theorem witness_SelfJump8 : StandsAtPc { inline with pc := 21 } (.jump (.a8 (-13))) :=
  ⟨by decide +kernel, by decide +kernel, by decide +kernel, by decide +kernel⟩
theorem witness_SelfJump16 : StandsAtPc ((start 0 0 0).withNextInstr (encode (.jump (.a16 (-22))))) (.jump (.a16 (-22))) :=
  ⟨by decide +kernel, by decide +kernel, by decide +kernel, by decide +kernel⟩
theorem witness_SelfJump32 : StandsAtPc ((start 0 0 0).withNextInstr (encode (.jump (.a32 (-39))))) (.jump (.a32 (-39))) :=
  ⟨by decide +kernel, by decide +kernel, by decide +kernel, by decide +kernel⟩
theorem witness_SelfJump64 : StandsAtPc ((start 0 0 0).withNextInstr (encode (.jump (.a64 (-71))))) (.jump (.a64 (-71))) :=
  ⟨by decide +kernel, by decide +kernel, by decide +kernel, by decide +kernel⟩
theorem witness_FlagsAndFrames : Memory.WF (edge 8).mem ∧
    exec (.letr .r0 .r1) (edge 8) = .next ((edge 8).setReg .r0 0xA5) ∧
    writesAllFlags (.letr .r0 .r1) = false ∧ writesZCN (.letr .r0 .r1) = false ∧
    (∀ cc x, Instr.letr .r0 .r1 ≠ .jumpif cc x) :=
  ⟨by decide +kernel, rfl, rfl, rfl, fun _ _ h => by cases h⟩
theorem witness_FlagsKeptByLogic : writesAllFlags (.or2 .r0 .r1) = false ∧ writesZCN (.or2 .r0 .r1) = true ∧
    (∃ t, exec (.or2 .r0 .r1) (edge 8) = .next t) := ⟨rfl, rfl, _, rfl⟩
theorem witness_DecodeOfEncode : (Instr.xor3i .r0 .r1 (.k64 (-1))).wellFormed .prose = true := by decide
theorem witness_EncodeOfDecode : decode .prose (toBits 0b1110000_101_001_1#14) = .ok (.push (some .b16) .r1, [true]) := by
  decide +kernel
theorem witness_EveryBitStringDecodes : 80 ≤ (List.replicate 80 true).length := by decide
theorem witness_EncodingIsPrefixFree : Instr.ret.wellFormed .table1 = true ∧
    encode .ret ++ [true] = encode .ret ++ [true] := by decide
/-- `write a0 8 r1` with `return` in the high seven bits of the byte, which ends memory. -/
theorem witness_StoredInstructionIsFetched :
    let s : State := (edge 8).setReg .r1 0b11100011#64
    let l := toBits 0b11100011#8
    s.Inv ∧ s.status = .running ∧ storedBits s (.write .a0 .b8 .r1) = some (4088, l) ∧
      (4088#64).toNat + l.length ≤ s.cfg.memBits ∧ Instr.ret.wellFormed s.cfg.pushForm = true ∧
      (4088#64).toNat + (encode .ret).length ≤ s.cfg.memBits ∧
      s.cfg.touchesDevice (4088#64).toNat (encode .ret).length = false ∧
      ∀ j, (h : j < (encode .ret).length) → (encode .ret)[j] = cellAfterStore s 4088 l ((4088#64).toNat + j) := by
  decide +kernel
/-- `push r1` that stores the last bit of `return` only, as its own first bit; the six before it were in memory. -/
theorem witness_StoredByPushInPart :
    let s : State :=
      { start 0 0x8000000000000000 0 with sp := 2064, mem := Memory.writeBits [] 1994 (toBits 0b111000#6) }
    s.Inv ∧ storedBits s (.push none .r1) = some (2000, toBits 0x8000000000000000#64) ∧
      ∀ j, (h : j < (encode .ret).length) →
        (encode .ret)[j] = cellAfterStore s 2000 (toBits 0x8000000000000000#64) ((1994#64).toNat + j) := by
  decide +kernel
theorem witness_SizesOfConstants : zextConst (.k8 255) = BitVec.ofInt 64 255 ∧
    sextConst (.k8 0x80) = BitVec.ofInt 64 (-128) := by decide
theorem witness_SizesOfAddressesAndAmounts : addrValue (.a8 0x80) = BitVec.ofInt 64 (-128) ∧ shiftAmount .one = 1 ∧
    63 < 64 ∧ 64 ≤ 64 := by decide
/-- The labels of S4: `jumpif nz boucle` at 26, `boucle` at 17; and a `call` of the same label. -/
theorem witness_LabelUses :
    emitItem [("boucle".toList, 17)] 26 (.toLabel (.jumpif .neq) "boucle".toList) .w8 =
      .ok (toBits 0b1011_001_0_11100111#16) ∧
    emitItem [("boucle".toList, 17)] 26 (.toLabel .call "boucle".toList) .w8 =
      .ok (toBits 0b110101_0_00010001#15) := by decide +kernel

end Sys2Proof.Tests
end

section
/-! SUPPORT. Formats and opcodes: each reader takes exactly the bits the encoder writes (R82, R94, R96). The
operand classes are in Laws/Decode.lean. -/

namespace Sys2Proof

/-! ## Formats (R94): operand list, then reader -/

@[simp] theorem parseRR_bits (mk : Reg → Reg → Instr) (a b : Reg) (t : List Bool) :
    (parseRR mk).runList (a.bits ++ (b.bits ++ t)) = .ok (mk a b, t) := by
  simp [parseRR, runList_bind_of (parseReg_bits _ _)]

@[simp] theorem parseRC_bits (mk : Reg → Const → Instr) (a : Reg) (k : Const) (t : List Bool) :
    (parseRC mk).runList (a.bits ++ (k.bits ++ t)) = .ok (mk a k, t) := by
  simp [parseRC, runList_bind_of (parseReg_bits _ _), runList_bind_of (parseConst_bits _ _)]

@[simp] theorem parseSH_bits (mk : Dir → Reg → ShiftVal → Instr) (x : Dir) (a : Reg) (h : ShiftVal)
    (t : List Bool) : (parseSH mk).runList (x.bits ++ (a.bits ++ (h.bits ++ t))) = .ok (mk x a h, t) := by
  simp [parseSH, runList_bind_of (parseDir_bits _ _), runList_bind_of (parseReg_bits _ _),
    runList_bind_of (parseShiftVal_bits _ _)]

@[simp] theorem parseMEM_bits (mk : Ctr → Size → Reg → Instr) (c : Ctr) (z : Size) (a : Reg) (t : List Bool) :
    (parseMEM mk).runList (c.bits ++ (z.bits ++ (a.bits ++ t))) = .ok (mk c z a, t) := by
  simp [parseMEM, runList_bind_of (parseCtr_bits _ _), runList_bind_of (parseSize_bits _ _),
    runList_bind_of (parseReg_bits _ _)]

@[simp] theorem parseJ_bits (mk : Addr → Instr) (x : Addr) (t : List Bool) :
    (parseJ mk).runList (x.bits ++ t) = .ok (mk x, t) := by
  simp [parseJ, runList_bind_of (parseAddr_bits _ _)]

@[simp] theorem parseJC_bits (mk : Cond → Addr → Instr) (cc : Cond) (x : Addr) (t : List Bool) :
    (parseJC mk).runList (cc.bits ++ (x.bits ++ t)) = .ok (mk cc x, t) := by
  simp [parseJC, runList_bind_of (parseCond_bits _ _), runList_bind_of (parseAddr_bits _ _)]

@[simp] theorem parseCR_bits (mk : Ctr → Reg → Instr) (c : Ctr) (a : Reg) (t : List Bool) :
    (parseCR mk).runList (c.bits ++ (a.bits ++ t)) = .ok (mk c a, t) := by
  simp [parseCR, runList_bind_of (parseCtr_bits _ _), runList_bind_of (parseReg_bits _ _)]

@[simp] theorem parseRRR_bits (mk : Reg → Reg → Reg → Instr) (a b c : Reg) (t : List Bool) :
    (parseRRR mk).runList (a.bits ++ (b.bits ++ (c.bits ++ t))) = .ok (mk a b c, t) := by
  simp [parseRRR, runList_bind_of (parseReg_bits _ _)]

@[simp] theorem parseRRC_bits (mk : Reg → Reg → Const → Instr) (a b : Reg) (k : Const) (t : List Bool) :
    (parseRRC mk).runList (a.bits ++ (b.bits ++ (k.bits ++ t))) = .ok (mk a b k, t) := by
  simp [parseRRC, runList_bind_of (parseReg_bits _ _), runList_bind_of (parseConst_bits _ _)]

@[simp] theorem parseRRS_bits (mk : Reg → Reg → ShiftVal → Instr) (a b : Reg) (h : ShiftVal) (t : List Bool) :
    (parseRRS mk).runList (a.bits ++ (b.bits ++ (h.bits ++ t))) = .ok (mk a b h, t) := by
  simp [parseRRS, runList_bind_of (parseReg_bits _ _), runList_bind_of (parseShiftVal_bits _ _)]

/-- The form of Table 1 (R196). -/
@[simp] theorem parsePush_table1_bits (r : Reg) (t : List Bool) :
    (parsePush .table1).runList (r.bits ++ t) = .ok (.push none r, t) := by
  simp [parsePush, runList_bind_of (parseReg_bits _ _)]

/-- The form of the prose (R197). -/
@[simp] theorem parsePush_prose_bits (z : Size) (r : Reg) (t : List Bool) :
    (parsePush .prose).runList (z.bits ++ (r.bits ++ t)) = .ok (.push (some z) r, t) := by
  simp [parsePush, runList_bind_of (parseSize_bits _ _), runList_bind_of (parseReg_bits _ _)]

/-! ## The opcode map (R82): an opcode of more than four bits is read as its first four and the others -/

/-- The first field of an opcode and the second, as the one number Table 1 writes (R96). -/
theorem toBits_append {n m : Nat} (a : BitVec n) (b : BitVec m) : toBits (a ++ b) = toBits a ++ toBits b := by
  apply List.ext_getElem
  · simp
  · intro j h1 h2
    simp only [toBits_getElem, List.getElem_append, toBits_length]
    split <;> simp_all [BitVec.getMsbD_append]

/-- Reading a field whose value `a` asks for a second one. -/
theorem runList_take_append {α : Type} {n m : Nat} {k : BitVec n → BitParser α} {g : BitVec m → BitParser α}
    (a : BitVec n) (x : BitVec m) (t : List Bool) (h : k a = .take m g) :
    (BitParser.take n k).runList (toBits (a ++ x) ++ t) = (g x).runList t := by
  rw [toBits_append, List.append_assoc, runList_take, h, runList_take]

/-- Decoding gives an encoded instruction back, whatever bits follow it (R99). -/
theorem decode_encode {f : PushForm} {i : Instr} (h : i.wellFormed f = true) (t : List Bool) :
    decode f (encode i ++ t) = .ok (i, t) := by
  unfold decode
  cases i <;> simp only [encode, List.append_assoc]
  case add2 | sub2 | cmp | letr => exact (runList_take ..).trans (parseRR_bits ..)
  case add2i | sub2i | cmpi | leti => exact (runList_take ..).trans (parseRC_bits ..)
  case shift => exact (runList_take ..).trans (parseSH_bits ..)
  case jump => exact (runList_take ..).trans (parseJ_bits ..)
  case jumpif => exact (runList_take ..).trans (parseJC_bits ..)
  case readze => exact (runList_take_append 0b1001#4 0#1 _ rfl).trans (parseMEM_bits ..)
  case readse => exact (runList_take_append 0b1001#4 1#1 _ rfl).trans (parseMEM_bits ..)
  case or2 => exact (runList_take_append 0b1100#4 0b00#2 _ rfl).trans (parseRR_bits ..)
  case or2i => exact (runList_take_append 0b1100#4 0b01#2 _ rfl).trans (parseRC_bits ..)
  case and2 => exact (runList_take_append 0b1100#4 0b10#2 _ rfl).trans (parseRR_bits ..)
  case and2i => exact (runList_take_append 0b1100#4 0b11#2 _ rfl).trans (parseRC_bits ..)
  case write => exact (runList_take_append 0b1101#4 0b00#2 _ rfl).trans (parseMEM_bits ..)
  case call => exact (runList_take_append 0b1101#4 0b01#2 _ rfl).trans (parseJ_bits ..)
  case setctr => exact (runList_take_append 0b1101#4 0b10#2 _ rfl).trans (parseCR_bits ..)
  case getctr => exact (runList_take_append 0b1101#4 0b11#2 _ rfl).trans (parseCR_bits ..)
  case push z r =>
    match f, z, h with
    | .table1, none, _ => exact (runList_take_append 0b1110#4 0b000#3 _ rfl).trans (parsePush_table1_bits ..)
    | .prose, some z, _ =>
      simp only [List.append_assoc]
      exact (runList_take_append 0b1110#4 0b000#3 _ rfl).trans (parsePush_prose_bits ..)
  case ret => exact (runList_take_append 0b1110#4 0b001#3 _ rfl).trans rfl
  case add3 => exact (runList_take_append 0b1110#4 0b010#3 _ rfl).trans (parseRRR_bits ..)
  case add3i => exact (runList_take_append 0b1110#4 0b011#3 _ rfl).trans (parseRRC_bits ..)
  case sub3 => exact (runList_take_append 0b1110#4 0b100#3 _ rfl).trans (parseRRR_bits ..)
  case sub3i => exact (runList_take_append 0b1110#4 0b101#3 _ rfl).trans (parseRRC_bits ..)
  case and3 => exact (runList_take_append 0b1110#4 0b110#3 _ rfl).trans (parseRRR_bits ..)
  case and3i => exact (runList_take_append 0b1110#4 0b111#3 _ rfl).trans (parseRRC_bits ..)
  case or3 => exact (runList_take_append 0b1111#4 0b000#3 _ rfl).trans (parseRRR_bits ..)
  case or3i => exact (runList_take_append 0b1111#4 0b001#3 _ rfl).trans (parseRRC_bits ..)
  case xor3 => exact (runList_take_append 0b1111#4 0b010#3 _ rfl).trans (parseRRR_bits ..)
  case xor3i => exact (runList_take_append 0b1111#4 0b011#3 _ rfl).trans (parseRRC_bits ..)
  case asr3 => exact (runList_take_append 0b1111#4 0b100#3 _ rfl).trans (parseRRS_bits ..)
  case reserved1111101 => exact (runList_take_append 0b1111#4 0b101#3 _ rfl).trans rfl
  case reserved1111110 => exact (runList_take_append 0b1111#4 0b110#3 _ rfl).trans rfl
  case reserved1111111 => exact (runList_take_append 0b1111#4 0b111#3 _ rfl).trans rfl

/-! ## What the decoder took was an encoding (R81, R82) -/

/-- `i` is an instruction of the machine, and `l` is its encoding and then `t`. -/
def Begins (f : PushForm) (i : Instr) (l t : List Bool) : Prop := l = encode i ++ t ∧ i.wellFormed f = true

theorem parse1001_ok {f : PushForm} {x : BitVec 1} {l t : List Bool} {i : Instr}
    (h : (parse1001 x).runList l = .ok (i, t)) : Begins f i (toBits (0b1001#4 ++ x) ++ l) t := by
  have hx : ∀ x : BitVec 1, x = 0b0#1 ∨ x = 0b1#1 := by decide
  rcases hx x with rfl | rfl
  · obtain ⟨c, z, r, rfl, rfl⟩ := parseMEM_ok h; exact ⟨by simp [encode], rfl⟩
  · obtain ⟨c, z, r, rfl, rfl⟩ := parseMEM_ok h; exact ⟨by simp [encode], rfl⟩

theorem parse1100_ok {f : PushForm} {x : BitVec 2} {l t : List Bool} {i : Instr}
    (h : (parse1100 x).runList l = .ok (i, t)) : Begins f i (toBits (0b1100#4 ++ x) ++ l) t := by
  have hx : ∀ x : BitVec 2, x = 0b00#2 ∨ x = 0b01#2 ∨ x = 0b10#2 ∨ x = 0b11#2 := by decide
  rcases hx x with rfl | rfl | rfl | rfl
  · obtain ⟨d, s, rfl, rfl⟩ := parseRR_ok h; exact ⟨by simp [encode], rfl⟩
  · obtain ⟨d, k, rfl, rfl⟩ := parseRC_ok h; exact ⟨by simp [encode], rfl⟩
  · obtain ⟨d, s, rfl, rfl⟩ := parseRR_ok h; exact ⟨by simp [encode], rfl⟩
  · obtain ⟨d, k, rfl, rfl⟩ := parseRC_ok h; exact ⟨by simp [encode], rfl⟩

theorem parse1101_ok {f : PushForm} {x : BitVec 2} {l t : List Bool} {i : Instr}
    (h : (parse1101 x).runList l = .ok (i, t)) : Begins f i (toBits (0b1101#4 ++ x) ++ l) t := by
  have hx : ∀ x : BitVec 2, x = 0b00#2 ∨ x = 0b01#2 ∨ x = 0b10#2 ∨ x = 0b11#2 := by decide
  rcases hx x with rfl | rfl | rfl | rfl
  · obtain ⟨c, z, r, rfl, rfl⟩ := parseMEM_ok h; exact ⟨by simp [encode], rfl⟩
  · obtain ⟨a, rfl, rfl⟩ := parseJ_ok h; exact ⟨by simp [encode], rfl⟩
  · obtain ⟨c, r, rfl, rfl⟩ := parseCR_ok h; exact ⟨by simp [encode], rfl⟩
  · obtain ⟨c, r, rfl, rfl⟩ := parseCR_ok h; exact ⟨by simp [encode], rfl⟩

theorem parse1110_ok {f : PushForm} {x : BitVec 3} {l t : List Bool} {i : Instr}
    (h : (parse1110 f x).runList l = .ok (i, t)) : Begins f i (toBits (0b1110#4 ++ x) ++ l) t := by
  have hx : ∀ x : BitVec 3, x = 0b000#3 ∨ x = 0b001#3 ∨ x = 0b010#3 ∨ x = 0b011#3 ∨
      x = 0b100#3 ∨ x = 0b101#3 ∨ x = 0b110#3 ∨ x = 0b111#3 := by decide
  rcases hx x with rfl | rfl | rfl | rfl | rfl | rfl | rfl | rfl
  · rcases parsePush_ok h with ⟨r, rfl, rfl, rfl⟩ | ⟨z, r, rfl, rfl, rfl⟩ <;> exact ⟨by simp [encode], rfl⟩
  · cases h; exact ⟨by simp [encode], rfl⟩
  · obtain ⟨d, s, r, rfl, rfl⟩ := parseRRR_ok h; exact ⟨by simp [encode], rfl⟩
  · obtain ⟨d, s, k, rfl, rfl⟩ := parseRRC_ok h; exact ⟨by simp [encode], rfl⟩
  · obtain ⟨d, s, r, rfl, rfl⟩ := parseRRR_ok h; exact ⟨by simp [encode], rfl⟩
  · obtain ⟨d, s, k, rfl, rfl⟩ := parseRRC_ok h; exact ⟨by simp [encode], rfl⟩
  · obtain ⟨d, s, r, rfl, rfl⟩ := parseRRR_ok h; exact ⟨by simp [encode], rfl⟩
  · obtain ⟨d, s, k, rfl, rfl⟩ := parseRRC_ok h; exact ⟨by simp [encode], rfl⟩

theorem parse1111_ok {f : PushForm} {x : BitVec 3} {l t : List Bool} {i : Instr}
    (h : (parse1111 x).runList l = .ok (i, t)) : Begins f i (toBits (0b1111#4 ++ x) ++ l) t := by
  have hx : ∀ x : BitVec 3, x = 0b000#3 ∨ x = 0b001#3 ∨ x = 0b010#3 ∨ x = 0b011#3 ∨
      x = 0b100#3 ∨ x = 0b101#3 ∨ x = 0b110#3 ∨ x = 0b111#3 := by decide
  rcases hx x with rfl | rfl | rfl | rfl | rfl | rfl | rfl | rfl
  · obtain ⟨d, s, r, rfl, rfl⟩ := parseRRR_ok h; exact ⟨by simp [encode], rfl⟩
  · obtain ⟨d, s, k, rfl, rfl⟩ := parseRRC_ok h; exact ⟨by simp [encode], rfl⟩
  · obtain ⟨d, s, r, rfl, rfl⟩ := parseRRR_ok h; exact ⟨by simp [encode], rfl⟩
  · obtain ⟨d, s, k, rfl, rfl⟩ := parseRRC_ok h; exact ⟨by simp [encode], rfl⟩
  · obtain ⟨d, s, h, rfl, rfl⟩ := parseRRS_ok h; exact ⟨by simp [encode], rfl⟩
  · cases h; exact ⟨by simp [encode], rfl⟩
  · cases h; exact ⟨by simp [encode], rfl⟩
  · cases h; exact ⟨by simp [encode], rfl⟩

/-- A bit string that decodes is the encoding of the instruction found, which the machine has, and then the rest. -/
theorem decode_ok {f : PushForm} {l t : List Bool} {i : Instr} (h : decode f l = .ok (i, t)) : Begins f i l t := by
  obtain ⟨b, u, rfl, h⟩ := runList_take_ok h
  have hb : ∀ b : BitVec 4,
      b = 0b0000#4 ∨ b = 0b0001#4 ∨ b = 0b0010#4 ∨ b = 0b0011#4 ∨ b = 0b0100#4 ∨ b = 0b0101#4 ∨
      b = 0b0110#4 ∨ b = 0b0111#4 ∨ b = 0b1000#4 ∨ b = 0b1001#4 ∨ b = 0b1010#4 ∨ b = 0b1011#4 ∨
      b = 0b1100#4 ∨ b = 0b1101#4 ∨ b = 0b1110#4 ∨ b = 0b1111#4 := by decide
  rcases hb b with rfl | rfl | rfl | rfl | rfl | rfl | rfl | rfl | rfl | rfl | rfl | rfl | rfl | rfl | rfl | rfl
  · obtain ⟨d, s, rfl, rfl⟩ := parseRR_ok h; exact ⟨by simp [encode], rfl⟩
  · obtain ⟨d, k, rfl, rfl⟩ := parseRC_ok h; exact ⟨by simp [encode], rfl⟩
  · obtain ⟨d, s, rfl, rfl⟩ := parseRR_ok h; exact ⟨by simp [encode], rfl⟩
  · obtain ⟨d, k, rfl, rfl⟩ := parseRC_ok h; exact ⟨by simp [encode], rfl⟩
  · obtain ⟨d, s, rfl, rfl⟩ := parseRR_ok h; exact ⟨by simp [encode], rfl⟩
  · obtain ⟨d, k, rfl, rfl⟩ := parseRC_ok h; exact ⟨by simp [encode], rfl⟩
  · obtain ⟨d, s, rfl, rfl⟩ := parseRR_ok h; exact ⟨by simp [encode], rfl⟩
  · obtain ⟨d, k, rfl, rfl⟩ := parseRC_ok h; exact ⟨by simp [encode], rfl⟩
  · obtain ⟨x, d, h, rfl, rfl⟩ := parseSH_ok h; exact ⟨by simp [encode], rfl⟩
  · obtain ⟨x, v, rfl, hx⟩ := runList_take_ok (k := parse1001) h
    rw [← List.append_assoc, ← toBits_append]; exact parse1001_ok hx
  · obtain ⟨a, rfl, rfl⟩ := parseJ_ok h; exact ⟨by simp [encode], rfl⟩
  · obtain ⟨cc, a, rfl, rfl⟩ := parseJC_ok h; exact ⟨by simp [encode], rfl⟩
  · obtain ⟨x, v, rfl, hx⟩ := runList_take_ok (k := parse1100) h
    rw [← List.append_assoc, ← toBits_append]; exact parse1100_ok hx
  · obtain ⟨x, v, rfl, hx⟩ := runList_take_ok (k := parse1101) h
    rw [← List.append_assoc, ← toBits_append]; exact parse1101_ok hx
  · obtain ⟨x, v, rfl, hx⟩ := runList_take_ok (k := parse1110 f) h
    rw [← List.append_assoc, ← toBits_append]; exact parse1110_ok hx
  · obtain ⟨x, v, rfl, hx⟩ := runList_take_ok (k := parse1111) h
    rw [← List.append_assoc, ← toBits_append]; exact parse1111_ok hx

end Sys2Proof
end

section
/-! SUPPORT. The fetch of an instruction that stands at `pc`, and the step after it (R11, R62). -/

namespace Sys2Proof.Machine

open Sys2Proof.Claims

/-- Where the `n` bits at `pc`, none of a device, decode to `i`, a fetch reads `i` and stops after the bits decoded. -/
theorem fetch_of_decode {s : State} {n : Nat} {i : Instr} {rest : List Bool} (hv : s.cfg.Valid)
    (hin : s.pc.toNat + n ≤ s.cfg.memBits) (hd : s.cfg.touchesDevice s.pc.toNat n = false)
    (h : decode s.cfg.pushForm (Memory.readBits s.mem s.pc.toNat n) = .ok (i, rest)) :
    s.fetch = (.ok i, s.setCtr .pc (s.pc + BitVec.ofNat 64 (n - rest.length))) :=
  (fetchWith_of_runList hv.2 _ n i rest hin hd h).2

/-- Where `i` stands at `pc`, a fetch reads it and leaves `pc` at the first bit after it. -/
theorem fetch_of_standsAtPc {s : State} {i : Instr} (hv : s.cfg.Valid) (h : StandsAtPc s i) :
    s.fetch = (.ok i, afterFetch s i) := by
  obtain ⟨hwf, hin, hd, hbits⟩ := h
  have hdec : decode s.cfg.pushForm (Memory.readBits s.mem s.pc.toNat (encode i).length) = .ok (i, []) := by
    rw [hbits]
    simpa using decode_encode hwf []
  simpa [afterFetch] using fetch_of_decode hv hin hd hdec

/-- Whatever a fetch reads, also from a device, is an instruction of the machine; `pc` is at the first bit after it, and
nothing else changed but the device log, and that only where there are devices. -/
theorem fetch_ok {s t : State} {i : Instr} (h : s.fetch = (.ok i, t)) :
    i.wellFormed s.cfg.pushForm = true ∧ t = { afterFetch s i with io := t.io } ∧
      (s.cfg.devices = [] → t.io = s.io) := by
  obtain ⟨l, hl, ht, -⟩ := fetchWith_ok h
  obtain ⟨rfl, hwf⟩ := decode_ok hl
  obtain ⟨n, io, hn, hio⟩ := fetchWith_state (parseInstr s.cfg.pushForm) s
  have htio : t.io = io := congrArg State.io ((congrArg Prod.snd h).symm.trans hn)
  rw [List.append_nil] at ht
  exact ⟨hwf, ht, fun hnone => htio.trans (hio hnone)⟩

end Sys2Proof.Machine
end

section
/-! The statements of scope (spec/00_scope.md R11): a step runs the instruction at `pc`. -/

namespace Sys2Proof.Proofs

open Sys2Proof.Machine

/-- Settles O33: the fetch of an instruction that stands at `pc`, and what any fetch that completes read. -/
theorem stepRunsInstructionAtPc : Obligations.StepRunsInstructionAtPc := by
  intro s i hs
  constructor
  · intro hv h
    exact step_of_fetch hs (fetch_of_standsAtPc hv h)
  · intro t h
    obtain ⟨hwf, ht, hio⟩ := fetch_ok h
    exact ⟨hwf, step_of_fetch hs h, ht, hio⟩

/-- Settles O34: bits that decode are an instruction of the machine, and the fetch reads what they decode to (R11; R62,
decision D17, log 13). -/
theorem stepRunsDecodedInstruction : Obligations.StepRunsDecodedInstruction := by
  intro s n i rest hv hs hin hd h
  obtain ⟨-, hwf⟩ := decode_ok h
  exact ⟨hwf, step_of_fetch hs (fetch_of_decode hv hin hd h)⟩

end Sys2Proof.Proofs
end

section
/-! SUPPORT. What each data access answers, inside memory and outside it (R52, R53, R190). -/

namespace Sys2Proof.Machine

open Sys2Proof.Claims

/-- The state after a completed `MemWrite(addr, n, v)`: the bits stored, and the access seen by a device it touches
(R53, R58). -/
def State.stored (s : State) (addr : Word) {n : Nat} (v : BitVec n) : State :=
  { s with mem := Memory.writeBits s.mem addr.toNat (toBits v), io := s.ioAfter (.write addr.toNat (toBits v)) }

theorem memWrite_eq_stored {s : State} {addr : Word} {n : Nat} {v : BitVec n} (h : s.inMemory addr n) :
    s.memWrite addr v = .ok (s.stored addr v) := memWrite_of_inMemory h

@[simp] theorem stored_reg (s : State) (addr : Word) {n : Nat} (v : BitVec n) (r : Reg) :
    (s.stored addr v).reg r = s.reg r := rfl
@[simp] theorem stored_flags (s : State) (addr : Word) {n : Nat} (v : BitVec n) :
    (s.stored addr v).flags = s.flags := rfl
@[simp] theorem stored_ctr (s : State) (addr : Word) {n : Nat} (v : BitVec n) (k : Ctr) :
    (s.stored addr v).ctr k = s.ctr k := by cases k <;> rfl
@[simp] theorem stored_io (s : State) (addr : Word) {n : Nat} (v : BitVec n) :
    (s.stored addr v).io = s.ioAfter (.write addr.toNat (toBits v)) := rfl
@[simp] theorem stored_status (s : State) (addr : Word) {n : Nat} (v : BitVec n) :
    (s.stored addr v).status = s.status := rfl
@[simp] theorem stored_cfg (s : State) (addr : Word) {n : Nat} (v : BitVec n) :
    (s.stored addr v).cfg = s.cfg := rfl

/-- A store leaves every cell outside its bits alone. -/
theorem stored_cell_of_not_bitsAt {s : State} (hm : Memory.WF s.mem) {addr : Word} {n : Nat} (v : BitVec n) {a : Nat}
    (ha : ¬ bitsAt addr n a) : (s.stored addr v).cell a = s.cell a := by
  simp only [State.cell, State.stored]
  rw [Memory.read_writeBits hm, dif_neg (by simpa [bitsAt] using ha)]

/-! ## An access that completes: `readze`, `readse`, `write`, `push` (R191, R192, R193, R196, R197) -/

theorem exec_readze_of_inMemory {s : State} {k : Ctr} {z : Size} (d : Reg) (h : s.inMemory (s.ctr k) (sizeBits z)) :
    exec (.readze k z d) s = .next (((s.note (.read (s.ctr k).toNat (sizeBits z))).advance k (sizeBits z)).setReg d
      ((ofBits (sizeBits z) (s.bits (s.ctr k).toNat (sizeBits z))).setWidth 64)) := by
  simp only [exec, execReadze, readThrough_of_memRead (memRead_of_inMemory h)]

theorem exec_readse_of_inMemory {s : State} {k : Ctr} {z : Size} (d : Reg) (h : s.inMemory (s.ctr k) (sizeBits z)) :
    exec (.readse k z d) s = .next (((s.note (.read (s.ctr k).toNat (sizeBits z))).advance k (sizeBits z)).setReg d
      ((ofBits (sizeBits z) (s.bits (s.ctr k).toNat (sizeBits z))).signExtend 64)) := by
  simp only [exec, execReadse, readThrough_of_memRead (memRead_of_inMemory h)]

theorem exec_write_of_inMemory {s : State} {k : Ctr} {z : Size} (r : Reg) (h : s.inMemory (s.ctr k) (sizeBits z)) :
    exec (.write k z r) s =
      .next ((s.stored (s.ctr k) ((s.reg r).setWidth (sizeBits z))).advance k (sizeBits z)) := by
  simp only [exec, execWrite, State.writeThrough, memWrite_eq_stored h, finish]

theorem exec_push_of_inMemory {s : State} {z : Option Size} (r : Reg) (h : s.inMemory (pushAddr s z) (pushBits z)) :
    exec (.push z r) s =
      .next ((s.stored (pushAddr s z) ((s.reg r).setWidth (pushBits z))).setCtr .sp (pushAddr s z)) := by
  simp only [exec, execPush, memWrite_eq_stored h]

/-! ## An access that faults -/

theorem readThrough_of_not {s : State} {k : Ctr} {n : Nat} (h : ¬ s.inMemory (s.ctr k) n) :
    s.readThrough k n = .error (s.outOfMemory (s.ctr k)) := by
  simp only [State.readThrough, memRead_of_not h]

theorem writeThrough_of_not {s : State} {k : Ctr} {n : Nat} {v : BitVec n} (h : ¬ s.inMemory (s.ctr k) n) :
    s.writeThrough k v = .error (s.outOfMemory (s.ctr k)) := by
  simp only [State.writeThrough, memWrite_of_not h]

/-- An instruction whose data access is not inside memory raises the fault of that access (R52, R53). -/
theorem exec_of_not_inMemory {s : State} {i : Instr} {addr : Word} {n : Nat} (ha : dataAccess s i = some (addr, n))
    (h : ¬ s.inMemory addr n) : exec i s = .fault (s.outOfMemory addr) := by
  cases i with
  | readze => cases ha; simp only [exec, execReadze, readThrough_of_not h, raise_eq]
  | readse => cases ha; simp only [exec, execReadse, readThrough_of_not h, raise_eq]
  | write => cases ha; simp only [exec, execWrite, writeThrough_of_not h, finish, raise_eq]
  | push => cases ha; simp only [exec, execPush, memWrite_of_not h, raise_eq]
  | _ => cases ha

/-! ## What an instruction that completed made of the state -/

/-- An instruction that completed made its data access inside memory. -/
theorem inMemory_of_exec_next {s t : State} {i : Instr} {addr : Word} {n : Nat}
    (ha : dataAccess s i = some (addr, n)) (h : exec i s = .next t) : s.inMemory addr n := by
  by_contra hin
  rw [exec_of_not_inMemory ha hin] at h
  cases h

theorem exec_readze_next {s t : State} {k : Ctr} {z : Size} {d : Reg} (h : exec (.readze k z d) s = .next t) :
    ∃ w, t = ((s.note (.read (s.ctr k).toNat (sizeBits z))).advance k (sizeBits z)).setReg d w := by
  rw [exec_readze_of_inMemory d (inMemory_of_exec_next rfl h)] at h
  cases h
  exact ⟨_, rfl⟩

theorem exec_readse_next {s t : State} {k : Ctr} {z : Size} {d : Reg} (h : exec (.readse k z d) s = .next t) :
    ∃ w, t = ((s.note (.read (s.ctr k).toNat (sizeBits z))).advance k (sizeBits z)).setReg d w := by
  rw [exec_readse_of_inMemory d (inMemory_of_exec_next rfl h)] at h
  cases h
  exact ⟨_, rfl⟩

theorem exec_write_next {s t : State} {k : Ctr} {z : Size} {r : Reg} (h : exec (.write k z r) s = .next t) :
    t = (s.stored (s.ctr k) ((s.reg r).setWidth (sizeBits z))).advance k (sizeBits z) := by
  rw [exec_write_of_inMemory r (inMemory_of_exec_next rfl h)] at h
  cases h
  rfl

theorem exec_push_next {s t : State} {z : Option Size} {r : Reg} (h : exec (.push z r) s = .next t) :
    t = (s.stored (pushAddr s z) ((s.reg r).setWidth (pushBits z))).setCtr .sp (pushAddr s z) := by
  rw [exec_push_of_inMemory r (inMemory_of_exec_next rfl h)] at h
  cases h
  rfl

/-- `jumpif` writes `pc` or nothing (R182). -/
theorem exec_jumpif_next {s t : State} {cc : Cond} {x : Addr} (h : exec (.jumpif cc x) s = .next t) :
    t = s.setCtr .pc (s.pc + addrValue x) ∨ t = s := by
  simp only [exec, execJumpif] at h
  split at h
  · cases h; exact .inl rfl
  · cases h; exact .inr rfl

end Sys2Proof.Machine
end

section
/-! SUPPORT. Frames: which update of the state stays within which frame. -/

namespace Sys2Proof.Claims

open Sys2Proof.Machine

variable {s t : State} {rs : Reg → Prop} {ks : Ctr → Prop} {ms : Nat → Prop} {io : List DeviceAccess}

theorem Frame.refl (s : State) : Frame s s rs ks ms s.io :=
  ⟨fun _ _ => rfl, fun _ _ => rfl, fun _ _ => rfl, rfl, rfl, rfl⟩

/-- A register of the frame is written. -/
theorem Frame.setReg {d : Reg} {w : Word} (h : Frame s t rs ks ms io) (hd : rs d) :
    Frame s (t.setReg d w) rs ks ms io := by
  obtain ⟨hreg, hctr, hcell, hrest⟩ := h
  refine ⟨fun r hr => ?_, hctr, hcell, hrest⟩
  have hne : r ≠ d := fun e => hr (e ▸ hd)
  rw [setReg_reg_of_ne t w hne, hreg r hr]

theorem Frame.setFlags {f : Flags} (h : Frame s t rs ks ms io) : Frame s (t.setFlags f) rs ks ms io := h

theorem Frame.writeAlu {d : Reg} {r : Word × Flags} (h : Frame s t rs ks ms io) (hd : rs d) :
    Frame s (t.writeAlu d r) rs ks ms io := (h.setReg hd).setFlags

theorem Frame.setCtr {k : Ctr} {w : Word} (h : Frame s t rs ks ms io) (hk : ks k) :
    Frame s (t.setCtr k w) rs ks ms io := by
  obtain ⟨hreg, hctr, hcell, hio, hstatus, hcfg⟩ := h
  refine ⟨by simpa using hreg, fun j hj => ?_, by simpa using hcell, by simpa using hio, by simpa using hstatus,
    by simpa using hcfg⟩
  have hne : j ≠ k := fun e => hj (e ▸ hk)
  rw [setCtr_ctr_of_ne t w hne, hctr j hj]

theorem Frame.advance {k : Ctr} {n : Nat} (h : Frame s t rs ks ms io) (hk : ks k) :
    Frame s (t.advance k n) rs ks ms io := h.setCtr hk

theorem Frame.note (s : State) (e : DeviceAccess) : Frame s (s.note e) rs ks ms (s.ioAfter e) :=
  ⟨fun _ _ => rfl, fun k _ => note_ctr s e k, fun _ _ => rfl, rfl, rfl, rfl⟩

theorem Frame.stored (hm : Memory.WF s.mem) (addr : Word) {n : Nat} (v : BitVec n) :
    Frame s (s.stored addr v) rs ks (bitsAt addr n) (s.ioAfter (.write addr.toNat (toBits v))) :=
  ⟨fun _ _ => rfl, fun k _ => stored_ctr s addr v k, fun _ ha => stored_cell_of_not_bitsAt hm v ha, rfl, rfl, rfl⟩

end Sys2Proof.Claims
end

section
/-! SUPPORT. Two answers that differ in flags only (R26). -/

namespace Sys2Proof.Claims

open Sys2Proof.Machine

/-- `o'` answers a state where `o` does, the same but for the flags, and the fault that `o` raises. -/
def SameButFlags (o o' : Host.Outcome State Fault Refusal) : Prop :=
  (∀ t, o = .next t → ∃ u, o' = .next u ∧ u.setFlags t.flags = t) ∧ ∀ g, o = .fault g → o' = .fault g

theorem SameButFlags.next {t u : State} (h : u.setFlags t.flags = t) : SameButFlags (.next t) (.next u) := by
  refine ⟨fun t' ht => ?_, nofun⟩
  cases ht
  exact ⟨u, rfl, h⟩

theorem SameButFlags.fault (g : Fault) : SameButFlags (.fault g) (.fault g) :=
  ⟨nofun, fun _ h => h⟩

/-- An ALU instruction writes the same word whatever the flags were: at most the flags differ afterwards. -/
theorem SameButFlags.writeAlu {s : State} {f : Flags} {d : Reg} {r r' : Word × Flags} (h : r'.1 = r.1) :
    SameButFlags (.next (s.writeAlu d r)) (.next ((s.setFlags f).writeAlu d r')) := by
  apply SameButFlags.next
  simp only [State.writeAlu, h]
  rfl

theorem SameButFlags.setReg {s : State} {f : Flags} {d : Reg} {w : Word} :
    SameButFlags (.next (s.setReg d w)) (.next ((s.setFlags f).setReg d w)) := .next rfl

theorem SameButFlags.setCtr {s : State} {f : Flags} {k : Ctr} {w : Word} :
    SameButFlags (.next (s.setCtr k w)) (.next ((s.setFlags f).setCtr k w)) := .next (by cases k <;> rfl)

/-- A read through a counter, from a machine with other flags. -/
theorem SameButFlags.read {s : State} {f : Flags} {e : DeviceAccess} {k : Ctr} {n : Nat} {d : Reg} {w : Word} :
    SameButFlags (.next (((s.note e).advance k n).setReg d w))
      (.next ((((s.setFlags f).note e).advance k n).setReg d w)) := .next (by cases k <;> rfl)

/-- A store, from a machine with other flags. -/
theorem SameButFlags.stored {s : State} {f : Flags} {addr : Word} {n : Nat} {v : BitVec n} {k : Ctr} {w : Word} :
    SameButFlags (.next ((s.stored addr v).setCtr k w))
      (.next (((s.setFlags f).stored addr v).setCtr k w)) := .next (by cases k <;> rfl)

/-- Whether a data access is inside memory does not depend on the flags, and neither does its fault. -/
theorem SameButFlags.of_dataAccess {s : State} {f : Flags} {i : Instr} {addr : Word} {n : Nat}
    (ha : dataAccess s i = some (addr, n)) (ha' : dataAccess (s.setFlags f) i = some (addr, n))
    (h : s.inMemory addr n → SameButFlags (exec i s) (exec i (s.setFlags f))) :
    SameButFlags (exec i s) (exec i (s.setFlags f)) := by
  by_cases hin : s.inMemory addr n
  · exact h hin
  · rw [exec_of_not_inMemory ha hin, exec_of_not_inMemory ha' hin]
    exact .fault _

end Sys2Proof.Claims
end

section
/-! The statements of the state (spec/10_state.md): who writes what, and the state after reset. -/

namespace Sys2Proof.Proofs

open Sys2Proof.Machine Sys2Proof.Claims

/-- An instruction that writes no flag keeps all four (R25). -/
theorem exec_flags_of_writesNone {s t : State} {i : Instr} (hall : writesAllFlags i = false)
    (hzcn : writesZCN i = false) (h : exec i s = .next t) : t.flags = s.flags := by
  cases i with
  | add2 | add2i | sub2 | sub2i | cmp | cmpi | add3 | add3i | sub3 | sub3i => cases hall
  | shift | or2 | or2i | and2 | and2i | and3 | and3i | or3 | or3i | xor3 | xor3i | asr3 => cases hzcn
  | letr | leti | getctr => cases h; rfl
  | jump | call | ret | setctr => cases h; simp
  | jumpif => rcases exec_jumpif_next h with rfl | rfl <;> simp
  | readze => obtain ⟨w, rfl⟩ := exec_readze_next h; simp
  | readse => obtain ⟨w, rfl⟩ := exec_readse_next h; simp
  | write => rw [exec_write_next h]; simp
  | push => rw [exec_push_next h]; simp
  | reserved1111101 | reserved1111110 | reserved1111111 => cases h

/-- A logic or shift instruction keeps `v` (R150, R170). -/
theorem exec_v_of_writesZCN {s t : State} {i : Instr} (hzcn : writesZCN i = true) (h : exec i s = .next t) :
    t.flags.v = s.flags.v := by
  cases i with
  | or2 | or2i | and2 | and2i | and3 | and3i | or3 | or3i | xor3 | xor3i | asr3 => cases h; rfl
  | shift x => cases x <;> (cases h; rfl)
  | _ => cases hzcn

/-- Settles O43: logic and shifts keep `v`, and the rest of what is not listed writes no flag. -/
theorem unlistedFlagsKeepTheirValue : Obligations.UnlistedFlagsKeepTheirValue := by
  intro s t i h
  refine ⟨fun hall => ?_, fun hall hzcn => exec_flags_of_writesNone hall hzcn h⟩
  cases hzcn : writesZCN i with
  | true => exact exec_v_of_writesZCN hzcn h
  | false => rw [exec_flags_of_writesNone hall hzcn h]

/-- With other flags before, an instruction other than `jumpif` answers the same but for the flags (R26). -/
theorem exec_setFlags {i : Instr} (hi : ∀ cc x, i ≠ .jumpif cc x) (s : State) (f : Flags) :
    SameButFlags (exec i s) (exec i (s.setFlags f)) := by
  cases i with
  | add2 | add2i | add3 | add3i | sub2 | sub2i | sub3 | sub3i | or2 | or2i | or3 | or3i | and2 | and2i | and3 | and3i
  | xor3 | xor3i | asr3 => exact .writeAlu rfl
  | shift x => cases x <;> exact .writeAlu rfl
  | cmp | cmpi => exact .next rfl
  | letr | leti | getctr => exact .setReg
  | jump | call | ret | setctr => exact .setCtr
  | jumpif cc x => exact absurd rfl (hi cc x)
  | readze k z d =>
    refine .of_dataAccess rfl rfl fun hin => ?_
    rw [exec_readze_of_inMemory d hin, exec_readze_of_inMemory (s := s.setFlags f) d hin]
    exact .read
  | readse k z d =>
    refine .of_dataAccess rfl rfl fun hin => ?_
    rw [exec_readse_of_inMemory d hin, exec_readse_of_inMemory (s := s.setFlags f) d hin]
    exact .read
  | write k z r =>
    refine .of_dataAccess rfl rfl fun hin => ?_
    rw [exec_write_of_inMemory r hin, exec_write_of_inMemory (s := s.setFlags f) r hin]
    exact .stored
  | push z r =>
    refine .of_dataAccess rfl rfl fun hin => ?_
    rw [exec_push_of_inMemory r hin, exec_push_of_inMemory (s := s.setFlags f) r hin]
    exact .stored
  | reserved1111101 | reserved1111110 | reserved1111111 => exact .fault _

/-- Settles O44: the words written, the addresses and the faults are all computed from the rest of the state. -/
theorem onlyJumpifReadsFlags : Obligations.OnlyJumpifReadsFlags :=
  fun s f _ hi => exec_setFlags hi s f

/-- Settles O45: each instruction is a few updates of the state, and each of these stays within the frame. -/
theorem onlyListedStateIsWritten : Obligations.OnlyListedStateIsWritten := by
  intro s t i hm h
  cases i with
  | add2 | add2i | add3 | add3i | sub2 | sub2i | sub3 | sub3i | or2 | or2i | or3 | or3i | and2 | and2i | and3 | and3i
  | xor3 | xor3i | asr3 => cases h; exact .writeAlu (.refl s) rfl
  | shift x => cases x <;> (cases h; exact .writeAlu (.refl s) rfl)
  | cmp | cmpi => cases h; exact .setFlags (.refl s)
  | letr | leti | getctr => cases h; exact .setReg (.refl s) rfl
  | jump | ret | setctr => cases h; exact .setCtr (.refl s) rfl
  | call => cases h; exact .setCtr (.setReg (.refl s) rfl) rfl
  | jumpif =>
    rcases exec_jumpif_next h with rfl | rfl
    · exact .setCtr (.refl s) rfl
    · exact .refl _
  | readze => obtain ⟨w, rfl⟩ := exec_readze_next h; exact .setReg (.advance (.note s _) rfl) rfl
  | readse => obtain ⟨w, rfl⟩ := exec_readse_next h; exact .setReg (.advance (.note s _) rfl) rfl
  | write => rw [exec_write_next h]; exact .advance (.stored hm _ _) rfl
  | push => rw [exec_push_next h]; exact .setCtr (.stored hm _ _) rfl
  | reserved1111101 | reserved1111110 | reserved1111111 => cases h

/-- Settles O35 (R37, R230): both values are fields of `State.reset`. -/
theorem resetStartsAtZeroRunning : Obligations.ResetStartsAtZeroRunning := ⟨rfl, rfl⟩

/-- Settles O38: the parameters at reset meet R6, and a memory with nothing listed is canonical and within bounds. -/
theorem resetMeetsInvariant : Obligations.ResetMeetsInvariant :=
  ⟨⟨by decide, by decide⟩, ⟨List.Pairwise.nil, by simp [State.reset]⟩, by simp [State.reset]⟩

end Sys2Proof.Proofs
end

section
/-! SUPPORT. Memory as accesses see it: which bit of a value stands at which address, what a store makes of memory, and
which updates of the state keep the invariant (spec/20_memory.md R50 to R54). -/

namespace Sys2Proof.Machine

open Sys2Proof.Claims

/-! ## Bit order (R52, R53; D2) -/

/-- Of `n` bits, the one `j` places after the most significant one. -/
theorem getLsbD_sub_eq_getMsbD {n : Nat} (v : BitVec n) {j : Nat} (hj : j < n) :
    v.getLsbD (n - 1 - j) = v.getMsbD j := by
  rw [BitVec.getMsbD_eq_getLsbD, decide_eq_true hj, Bool.true_and]

/-- The value read from the `n` bits at `a` has the bit at the lowest address as its most significant one. -/
theorem ofBits_bits_getLsbD (s : State) (a : Nat) {n j : Nat} (hj : j < n) :
    (ofBits n (s.bits a n)).getLsbD (n - 1 - j) = s.bit (a + j) := by
  rw [getLsbD_sub_eq_getMsbD _ hj, ofBits_getMsbD (bits_length s a n), dif_pos (by simpa using hj), bits_getElem]

/-- The bits from `a` on are a first run and the run after it. -/
theorem bits_append (s : State) (a m n : Nat) : s.bits a (m + n) = s.bits a m ++ s.bits (a + m) n := by
  simp [State.bits, List.range_add, Function.comp_def, Nat.add_assoc]

/-- Putting two bit strings one after the other puts their values one after the other. -/
theorem ofBits_append {m n : Nat} {h l : List Bool} (hh : h.length = m) (hl : l.length = n) :
    ofBits (m + n) (h ++ l) = ofBits m h ++ ofBits n l := by
  apply toBits_injective
  rw [toBits_append, toBits_ofBits hh, toBits_ofBits hl, toBits_ofBits (by simp [hh, hl])]

/-! ## What a store makes of memory (R53) -/

/-- Every cell after a store: the bit stored there, or the cell as it was. -/
theorem stored_cell {s : State} (hm : Memory.WF s.mem) (addr : Word) {n : Nat} (v : BitVec n) (a : Nat) :
    (s.stored addr v).cell a = cellAfterStore s addr (toBits v) a := by
  simp only [State.cell, State.stored, Memory.read_writeBits hm, cellAfterStore]
  by_cases hlow : addr.toNat ≤ a
  · by_cases hin : a - addr.toNat < (toBits v).length
    · rw [dif_pos ⟨hlow, by omega⟩, if_pos hlow, List.getElem?_eq_getElem hin, Option.getD_some]
    · rw [dif_neg (by omega), if_pos hlow, List.getElem?_eq_none (by omega), Option.getD_none]
  · rw [dif_neg (by omega), if_neg hlow]

/-- The addressed cells hold the value, most significant bit at the lowest address. -/
theorem stored_cell_getLsbD {s : State} (hm : Memory.WF s.mem) (addr : Word) {n j : Nat} (v : BitVec n) (hj : j < n) :
    (s.stored addr v).cell (addr.toNat + j) = v.getLsbD (n - 1 - j) := by
  have hlen : j < (toBits v).length := by simpa using hj
  rw [stored_cell hm, cellAfterStore, if_pos (Nat.le_add_right ..), Nat.add_sub_cancel_left,
    List.getElem?_eq_getElem hlen, Option.getD_some, toBits_getElem, getLsbD_sub_eq_getMsbD v hj]

/-! ## Which instructions store (R53, R193, R196, R197) -/

/-- The store of an instruction is its data access. -/
theorem dataAccess_of_storedBits {s : State} {i : Instr} {addr : Word} {l : List Bool}
    (h : storedBits s i = some (addr, l)) : dataAccess s i = some (addr, l.length) := by
  cases i with
  | write | push => cases h; simp [dataAccess]
  | _ => cases h

/-- A store inside memory completes: the bits are stored, and one counter is written besides. -/
theorem exec_of_storedBits {s : State} {i : Instr} {addr : Word} {l : List Bool}
    (h : storedBits s i = some (addr, l)) (hin : s.inMemory addr l.length) :
    ∃ (n : Nat) (v : BitVec n) (k : Ctr) (w : Word),
      toBits v = l ∧ exec i s = .next ((s.stored addr v).setCtr k w) := by
  cases i with
  | write => cases h; rw [toBits_length] at hin; exact ⟨_, _, _, _, rfl, exec_write_of_inMemory _ hin⟩
  | push => cases h; rw [toBits_length] at hin; exact ⟨_, _, _, _, rfl, exec_push_of_inMemory _ hin⟩
  | _ => cases h

/-- An instruction that has no store leaves memory as it was. -/
theorem exec_mem_of_storedBits_none {s t : State} {i : Instr} (hi : storedBits s i = none) (h : exec i s = .next t) :
    t.mem = s.mem := by
  cases i with
  | write | push => cases hi
  | add2 | add2i | add3 | add3i | sub2 | sub2i | sub3 | sub3i | or2 | or2i | or3 | or3i | and2 | and2i | and3 | and3i
  | xor3 | xor3i | asr3 | cmp | cmpi | letr | leti | getctr => cases h; rfl
  | shift x => cases x <;> (cases h; rfl)
  | jump | call | ret | setctr => cases h; simp
  | jumpif => rcases exec_jumpif_next h with rfl | rfl <;> simp
  | readze => obtain ⟨w, rfl⟩ := exec_readze_next h; simp
  | readse => obtain ⟨w, rfl⟩ := exec_readse_next h; simp
  | reserved1111101 | reserved1111110 | reserved1111111 => cases h

/-- Without devices no instruction adds to the device log (R58). -/
theorem ioWritten_of_none {s : State} (h : s.cfg.devices = []) (i : Instr) : ioWritten s i = s.io := by
  cases i with
  | readze | readse | write | push => exact ioAfter_of_none h _
  | _ => rfl

/-! ## The invariant (R6, R50) -/

/-- The invariant speaks of memory and parameters only. -/
theorem inv_congr {s t : State} (h : s.Inv) (hm : t.mem = s.mem) (hc : t.cfg = s.cfg) : t.Inv := by
  simpa only [State.Inv, hm, hc] using h

/-- A store inside memory keeps memory canonical and adds no bit outside it. -/
theorem inv_stored {s : State} (h : s.Inv) {addr : Word} {n : Nat} (v : BitVec n) (hin : s.inMemory addr n) :
    (s.stored addr v).Inv := by
  obtain ⟨hv, hwf, hbound⟩ := h
  refine ⟨hv, Memory.writeBits_wf hwf _ _, fun c hc => ?_⟩
  rcases Memory.mem_writeBits hc with hold | ⟨-, hnew⟩
  · exact hbound c hold
  · rw [toBits_length] at hnew
    exact Nat.lt_of_lt_of_le hnew hin

/-- The meaning of every instruction keeps the invariant. -/
theorem exec_inv {s t : State} {i : Instr} (h : s.Inv) (he : exec i s = .next t) : t.Inv := by
  cases hst : storedBits s i with
  | none =>
    have ⟨_, hwf, _⟩ := h
    obtain ⟨-, -, -, -, -, hcfg⟩ := Proofs.onlyListedStateIsWritten s t i hwf he
    exact inv_congr h (exec_mem_of_storedBits_none hst he) hcfg
  | some store =>
    obtain ⟨addr, l⟩ := store
    have hin : s.inMemory addr l.length := inMemory_of_exec_next (dataAccess_of_storedBits hst) he
    obtain ⟨n, v, k, w, rfl, hnext⟩ := exec_of_storedBits hst hin
    rw [hnext] at he
    cases he
    rw [toBits_length] at hin
    exact inv_congr (inv_stored h v hin) (setCtr_mem ..) (setCtr_cfg ..)

end Sys2Proof.Machine
end

section
/-! The statements of memory (spec/20_memory.md): single accesses, the fault of a fetch, what every step keeps, and a
store seen by the next fetch. -/

namespace Sys2Proof.Proofs

open Sys2Proof.Machine Sys2Proof.Claims

/-- Settles O40: the fetch changes `pc` and the device log only, and the meaning of what it fetched keeps the invariant;
its frame says the rest. -/
theorem stepKeepsInvariant : Obligations.StepKeepsInvariant := by
  intro s t hinv h
  obtain ⟨hrun, i, u, hfetch, he⟩ := step_next h
  obtain ⟨-, hu, hfetchIo⟩ := fetch_ok hfetch
  have hcfg : u.cfg = s.cfg := by rw [hu]; rfl
  have hstatus : u.status = s.status := by rw [hu]; rfl
  have huinv : u.Inv := inv_congr hinv (by rw [hu]; rfl) hcfg
  have ⟨_, hwf, _⟩ := huinv
  obtain ⟨-, -, -, htio, htstatus, htcfg⟩ := onlyListedStateIsWritten u t i hwf he
  refine ⟨exec_inv huinv he, hrun, by rw [htstatus, hstatus, hrun], htcfg.trans hcfg, fun hnone => ?_⟩
  rw [htio, ioWritten_of_none (by rw [hcfg]; exact hnone), hfetchIo hnone]

/-- Settles O16: inside memory the value is made of the bits answered, and otherwise the read raises its fault. -/
theorem memReadReadsMostSignificantFirst : Obligations.MemReadReadsMostSignificantFirst := by
  intro s addr n _ _
  refine ⟨fun hout => memRead_of_not (Nat.not_le.2 hout), fun hin => ?_⟩
  exact ⟨_, memRead_of_inMemory hin, fun j hj => ofBits_bits_getLsbD s addr.toNat hj⟩

/-- Settles O17: inside memory the state after the write is `State.stored`, and otherwise there is none. -/
theorem memWriteStoresMostSignificantFirst : Obligations.MemWriteStoresMostSignificantFirst := by
  intro s addr n v hm _ _
  refine ⟨fun hout => memWrite_of_not (Nat.not_le.2 hout), fun hin => ?_⟩
  exact ⟨_, memWrite_eq_stored hin, fun j hj => stored_cell_getLsbD hm addr v hj, rfl, .stored hm addr v⟩

/-- Settles O18: the bits of the wide read are those of the two narrow ones; with a bit left to read, the second address
has not wrapped. -/
theorem wideReadIsTwoNarrowReads : Obligations.WideReadIsTwoNarrowReads := by
  intro s p m n hv _ hn _ hin
  have hfirst : s.inMemory p m := by show p.toNat + m ≤ s.cfg.memBits; omega
  have haddr : (p + BitVec.ofNat 64 m).toNat = p.toNat + m := by
    have hle := hv.2
    rcases toNat_add_inMemory hle hfirst with hsum | ⟨-, htop, -⟩ <;> omega
  have hsecond : s.inMemory (p + BitVec.ofNat 64 m) n := by
    show (p + BitVec.ofNat 64 m).toNat + n ≤ s.cfg.memBits; omega
  refine ⟨_, _, memRead_of_inMemory hfirst, memRead_of_inMemory hsecond, ?_⟩
  rw [memRead_of_inMemory hin, bits_append, ofBits_append (bits_length ..) (bits_length ..), haddr]

/-- Settles O28: a fetch that starts inside memory or at its end faults at the end; one that starts further on does not
get its first field. -/
theorem fetchFaultsWithFirstAddressOutOfMemory : Obligations.FetchFaultsWithFirstAddressOutOfMemory := by
  intro s f hv h
  by_cases hpc : s.pc.toNat ≤ s.cfg.memBits
  · rw [Nat.max_eq_right hpc]
    exact fetchWith_error hv.2 _ f hpc h
  · have hout : ¬ s.inMemory s.pc 4 := by show ¬ s.pc.toNat + 4 ≤ s.cfg.memBits; omega
    rcases fetchWith_take (s := s) 4 _ with ⟨hin, -⟩ | ⟨-, hfault⟩
    · exact absurd hin hout
    · rw [State.fetch, parseInstr, hfault] at h
      cases h
      rfl

/-- Settles O39: loading stores only bits that memory has, and changes nothing but memory. -/
theorem launchMeetsInvariant : Obligations.LaunchMeetsInvariant := by
  intro image any ⟨hv, hwf, hbound⟩
  obtain ⟨hwf', hbound'⟩ := loadBits_mem (s := { any with pc := 0, status := .running }) hwf hbound 0 image
  have hcfg : (State.launch image any).cfg = any.cfg := by
    obtain ⟨m, hload⟩ := loadBits_eq { any with pc := 0, status := .running } 0 image
    rw [State.launch, hload]
  exact ⟨by rw [hcfg]; exact hv, hwf', by rw [hcfg]; exact hbound'⟩

/-- Settles O55: after the store every cell is as the statement gives it, so the instruction stands at `p`. -/
theorem storedInstructionIsFetched : Obligations.StoredInstructionIsFetched := by
  intro s st i addr p l ⟨hv, hwf, _⟩ hrun hst hin hi hroom hdev hbits
  obtain ⟨n, v, k, w, rfl, he⟩ := exec_of_storedBits hst hin
  refine ⟨_, he, ?_⟩
  have hmem : (((s.stored addr v).setCtr k w).setCtr .pc p).mem = (s.stored addr v).mem := by simp
  have hstands : StandsAtPc (((s.stored addr v).setCtr k w).setCtr .pc p) i := by
    refine ⟨by simpa using hi, by simpa using hroom, by simpa using hdev, ?_⟩
    refine List.ext_getElem (by simp) fun j _ hj => ?_
    rw [Memory.readBits_getElem, hmem, setCtr_pc_pc, hbits j hj, ← stored_cell hwf]
    rfl
  exact step_of_fetch (by simpa using hrun) (fetch_of_standsAtPc (by simpa using hv) hstands)

end Sys2Proof.Proofs
end

section
/-! SUPPORT. Room to decode: a reader that stops short asked for more bits than there were (R82, R99). -/

namespace Sys2Proof

/-- Some bits are just what a reader takes. -/
theorem exists_runList {α : Type} (p : BitParser α) : ∃ l a, p.runList l = .ok (a, []) := by
  induction p with
  | done a => exact ⟨[], a, rfl⟩
  | take n k ih =>
    obtain ⟨l, a, hl⟩ := ih 0#n
    exact ⟨toBits 0#n ++ l, a, by rw [runList_take, hl]⟩

/-- A bit string that is too short for a reader is shorter than one it takes whole. -/
theorem exists_longer_of_runList_error {α : Type} {p : BitParser α} {l : List Bool} {e : DecodeError}
    (h : p.runList l = .error e) : ∃ l' a, p.runList l' = .ok (a, []) ∧ l.length < l'.length := by
  induction p generalizing l with
  | done a => cases h
  | take n k ih =>
    simp only [BitParser.runList] at h
    split at h
    · next hshort =>
      obtain ⟨l', a, hl'⟩ := exists_runList (k 0#n)
      refine ⟨toBits 0#n ++ l', a, by rw [runList_take, hl'], ?_⟩
      have hlt := splitBits_eq_none.1 hshort
      simp only [List.length_append, toBits_length]
      omega
    · next b t hsplit =>
      obtain ⟨rfl, hb⟩ := splitBits_some hsplit
      obtain ⟨l', a, hl', hlt⟩ := ih _ h
      refine ⟨toBits (ofBits n b) ++ l', a, by rw [runList_take, hl'], ?_⟩
      simp only [List.length_append, toBits_length]
      omega

/-- What the decoder takes whole is the encoding of an instruction. -/
theorem runList_parseInstr_whole {f : PushForm} {l : List Bool} {i : Instr}
    (h : (parseInstr f).runList l = .ok (i, [])) : l = encode i := by
  obtain ⟨hl, -⟩ := decode_ok h
  rwa [List.append_nil] at hl

/-- Well-formed instructions whose encodings begin one bit string are the same (R12). -/
theorem encode_append_inj {f : PushForm} {i j : Instr} {l m : List Bool} (hi : i.wellFormed f = true)
    (hj : j.wellFormed f = true) (h : encode i ++ l = encode j ++ m) : i = j ∧ l = m := by
  have hsame : (i, l) = (j, m) := by
    apply Except.ok.inj (ε := DecodeError)
    rw [← decode_encode hi l, h, decode_encode hj m]
  exact Prod.mk.inj hsame

end Sys2Proof
end

section
/-! SUPPORT. The lengths of instructions (R97). -/

namespace Sys2Proof.Claims

/-- The opcode and the operands' codes together have a length of R97's table. -/
theorem encode_length_mem_lengths (i : Instr) : (encode i).length ∈ lengths i := by
  cases i with
  | add2 | sub2 | cmp | letr | or2 | and2 | setctr | getctr | ret | add3 | sub3 | and3 | or3 | xor3
  | reserved1111101 | reserved1111110 | reserved1111111 => simp [encode, lengths]
  | add2i _ k | sub2i _ k | cmpi _ k | leti _ k | or2i _ k | and2i _ k | add3i _ _ k | sub3i _ _ k | and3i _ _ k
  | or3i _ _ k | xor3i _ _ k =>
    rcases k.bits_length with hk | hk | hk | hk <;> simp [encode, lengths, hk]
  | jump a | jumpif _ a | call a => rcases a.bits_length with ha | ha | ha | ha <;> simp [encode, lengths, ha]
  | shift _ _ h | asr3 _ _ h => rcases h.bits_length with hh | hh <;> simp [encode, lengths, hh]
  | readze _ z | readse _ z | write _ z => rcases z.bits_length with hz | hz <;> simp [encode, lengths, hz]
  | push z => cases z with
    | none => simp [encode, lengths]
    | some z => rcases z.bits_length with hz | hz <;> simp [encode, lengths, hz]

/-- Every length of R97's table is one from 7 to 80. -/
theorem lengths_bounds (i : Instr) : ∀ n ∈ lengths i, 7 ≤ n ∧ n ≤ 80 := by
  cases i with
  | push z => cases z <;> simp [lengths]
  | _ => simp [lengths]

theorem encode_length_bounds (i : Instr) : 7 ≤ (encode i).length ∧ (encode i).length ≤ 80 :=
  lengths_bounds i _ (encode_length_mem_lengths i)

end Sys2Proof.Claims
end

section
/-! SUPPORT. Where a fetch completes and where it faults (R56, R82, R99). -/

namespace Sys2Proof.Machine

open Sys2Proof.Claims

/-- A reading that faults asked for a bit outside memory: some bits its reader takes whole do not fit there. -/
theorem exists_outside_of_fetchWith_error {α : Type} {p : BitParser α} {s : State} {f : Fault} (hv : s.cfg.Valid)
    (h : (fetchWith p s).1 = .error f) :
    ∃ l a, p.runList l = .ok (a, []) ∧ s.cfg.memBits < s.pc.toNat + l.length := by
  induction p generalizing s with
  | done a => cases h
  | take n k ih =>
    rcases fetchWith_take (s := s) n k with ⟨hin, e⟩ | ⟨hout, -⟩
    · rw [e] at h
      obtain ⟨l, a, hl, hlt⟩ := ih _ (s := (s.note (.read s.pc.toNat n)).advance .pc n) hv h
      refine ⟨toBits (ofBits n (s.bits s.pc.toNat n)) ++ l, a, by rw [runList_take, hl], ?_⟩
      have hlt' : s.cfg.memBits < (s.pc + BitVec.ofNat 64 n).toNat + l.length := hlt
      simp only [List.length_append, toBits_length]
      rcases toNat_add_inMemory hv.2 hin with hsum | ⟨hwrap, htop, -⟩ <;> omega
    · obtain ⟨l, a, hl⟩ := exists_runList (k 0#n)
      refine ⟨toBits 0#n ++ l, a, by rw [runList_take, hl], ?_⟩
      simp only [List.length_append, toBits_length]
      omega

/-- A fetch reads an instruction or faults. -/
theorem fetch_ok_or_error (s : State) : (∃ i t, s.fetch = (.ok i, t)) ∨ ∃ f, s.fetch.1 = .error f := by
  rcases h : s.fetch with ⟨i | f, t⟩
  · exact .inr ⟨_, rfl⟩
  · exact .inl ⟨_, _, rfl⟩

/-- A fetch completes where the longest instruction has room. -/
theorem exists_fetch_ok {s : State} (hv : s.cfg.Valid) (hroom : s.pc.toNat + 80 ≤ s.cfg.memBits) :
    ∃ i t, s.fetch = (.ok i, t) := by
  rcases fetch_ok_or_error s with hok | ⟨f, hf⟩
  · exact hok
  · obtain ⟨l, i, hl, hlt⟩ := exists_outside_of_fetchWith_error hv hf
    obtain rfl := runList_parseInstr_whole hl
    have hlen := encode_length_bounds i
    omega

/-- Where a machine's bits at `pc`, none of a device, decode, the instruction found stands at `pc`. -/
theorem standsAtPc_of_decode {s : State} {n : Nat} {i : Instr} {rest : List Bool}
    (hin : s.pc.toNat + n ≤ s.cfg.memBits) (hd : s.cfg.touchesDevice s.pc.toNat n = false)
    (h : decode s.cfg.pushForm (Memory.readBits s.mem s.pc.toNat n) = .ok (i, rest)) : StandsAtPc s i := by
  obtain ⟨hbits, hwf⟩ := decode_ok h
  obtain ⟨m, rfl⟩ : ∃ m, n = (encode i).length + m := by
    refine Nat.exists_eq_add_of_le ?_
    have hlen := congrArg List.length hbits
    rw [Memory.readBits_length, List.length_append] at hlen
    omega
  rw [touchesDevice_append, Bool.or_eq_false_iff] at hd
  rw [Memory.readBits_append] at hbits
  exact ⟨hwf, by omega, hd.1, (List.append_inj hbits (by simp)).1⟩

/-- A fetch that completes got its first field, so it did not start past the end of memory. -/
theorem pc_le_of_fetch_ok {s t : State} {i : Instr} (h : s.fetch = (.ok i, t)) : s.pc.toNat ≤ s.cfg.memBits := by
  rcases fetchWith_take (s := s) 4 _ with ⟨hin, -⟩ | ⟨-, hfault⟩
  · have hfield : s.pc.toNat + 4 ≤ s.cfg.memBits := hin
    omega
  · rw [State.fetch, parseInstr, hfault] at h
    cases h

/-- What is fetched lies inside memory with all its bits. -/
theorem encode_inMemory_of_fetch_ok {s t : State} {i : Instr} (hv : s.cfg.memBits < 2 ^ 64)
    (h : s.fetch = (.ok i, t)) : s.pc.toNat + (encode i).length ≤ s.cfg.memBits := by
  obtain ⟨l, hl, -, hroom⟩ := fetchWith_ok h
  obtain rfl := runList_parseInstr_whole hl
  exact hroom hv (pc_le_of_fetch_ok h)

/-- A running machine whose fetch cannot complete raises the fault of the fetch. -/
theorem step_of_fetch_not_ok {s : State} (hv : s.cfg.Valid) (hs : s.status = .running)
    (h : ∀ i t, s.fetch ≠ (.ok i, t)) : step s = .fault (.memFault (max s.pc.toNat s.cfg.memBits)) := by
  rcases fetch_ok_or_error s with ⟨i, t, hok⟩ | ⟨f, hf⟩
  · exact absurd hok (h i t)
  · rw [← Proofs.fetchFaultsWithFirstAddressOutOfMemory s f hv hf]
    exact step_of_fetch_error hs hf

end Sys2Proof.Machine
end

section
/-! SUPPORT. Which instructions complete: all but a reserved code word and a data access outside memory (R98, R212). -/

namespace Sys2Proof.Machine

open Sys2Proof.Claims

/-- An instruction whose data access lies inside memory completes. -/
theorem exec_next_of_inMemory {s : State} {i : Instr} {addr : Word} {n : Nat} (ha : dataAccess s i = some (addr, n))
    (h : s.inMemory addr n) : ∃ t, exec i s = .next t := by
  cases i with
  | readze => cases ha; exact ⟨_, exec_readze_of_inMemory _ h⟩
  | readse => cases ha; exact ⟨_, exec_readse_of_inMemory _ h⟩
  | write => cases ha; exact ⟨_, exec_write_of_inMemory _ h⟩
  | push => cases ha; exact ⟨_, exec_push_of_inMemory _ h⟩
  | _ => cases ha

/-- An instruction without a data access completes, unless it is a reserved code word. -/
theorem exec_next_of_no_dataAccess {s : State} {i : Instr} (ha : dataAccess s i = none)
    (hr : reservedBits i = none) : ∃ t, exec i s = .next t := by
  cases i with
  | readze | readse | write | push => cases ha
  | reserved1111101 | reserved1111110 | reserved1111111 => cases hr
  | shift x => cases x <;> exact ⟨_, rfl⟩
  | jumpif cc x =>
    by_cases hc : condHolds s.flags cc
    · exact ⟨_, if_pos hc⟩
    · exact ⟨_, if_neg hc⟩
  | _ => exact ⟨_, rfl⟩

/-- A reserved code word raises its own fault in every state (R98; D8). -/
theorem exec_of_reservedBits {i : Instr} {b : BitVec 7} (h : reservedBits i = some b) (s : State) :
    exec i s = .fault (.reservedOpcode b) := by
  cases i with
  | reserved1111101 | reserved1111110 | reserved1111111 => cases h; rfl
  | _ => cases h

/-- The encoding of a reserved code word is its 7 bits and no operand (R98). -/
theorem encode_of_reservedBits {i : Instr} {b : BitVec 7} (h : reservedBits i = some b) : encode i = toBits b := by
  cases i with
  | reserved1111101 | reserved1111110 | reserved1111111 => cases h; rfl
  | _ => cases h

/-- Apart from reserved code words an instruction faults with the fault of its data access only. -/
theorem exec_fault_of_not_reserved {s : State} {i : Instr} {f : Fault} (hr : reservedBits i = none)
    (h : exec i s = .fault f) : ∃ addr, f = s.outOfMemory addr := by
  cases ha : dataAccess s i with
  | none =>
    obtain ⟨t, ht⟩ := exec_next_of_no_dataAccess ha hr
    rw [ht] at h
    cases h
  | some access =>
    obtain ⟨addr, n⟩ := access
    by_cases hin : s.inMemory addr n
    · obtain ⟨t, ht⟩ := exec_next_of_inMemory ha hin
      rw [ht] at h
      cases h
    · rw [exec_of_not_inMemory ha hin] at h
      cases h
      exact ⟨addr, rfl⟩

end Sys2Proof.Machine
end

section
/-! The statements of encoding (spec/30_encoding.md): the round trips, totality, lengths, and what they say of a fetch. -/

namespace Sys2Proof.Proofs

open Sys2Proof.Machine Sys2Proof.Claims

/-- Settles O46: each opcode sends the decoder to the reader of its own operand list. -/
theorem decodeOfEncode : Obligations.DecodeOfEncode := fun _ _ rest h => decode_encode h rest

/-- Settles O47: what each reader took was the code of the operand it answers. -/
theorem encodeOfDecode : Obligations.EncodeOfDecode := fun _ _ _ _ h => decode_ok h

/-- Settles O49: decoding the common bit string gives both pairs. -/
theorem encodingIsPrefixFree : Obligations.EncodingIsPrefixFree := fun _ _ _ _ _ hi hj h => encode_append_inj hi hj h

/-- Settles O50: the lengths of the operand codes decide, and the table's entries are within the bounds. -/
theorem instructionLengths : Obligations.InstructionLengths :=
  fun i => ⟨encode_length_mem_lengths i, encode_length_bounds i⟩

/-- Settles O48: a bit string on which the decoder stops short is shorter than some encoding. -/
theorem everyBitStringDecodes : Obligations.EveryBitStringDecodes := by
  intro f l hl
  cases h : decode f l with
  | ok r => exact ⟨r.1, r.2, rfl⟩
  | error e =>
    obtain ⟨l', i, hl', hlt⟩ := exists_longer_of_runList_error h
    obtain rfl := runList_parseInstr_whole hl'
    have hlen := encode_length_bounds i
    omega

/-- Settles O29: no instruction is too long for the room; without a device, memory's own 80 bits decode to what is
fetched. -/
theorem fetchCompletesInsideMemory : Obligations.FetchCompletesInsideMemory := by
  intro s hv hroom
  obtain ⟨i, t, hfetch⟩ := exists_fetch_ok hv hroom
  obtain ⟨hwf, ht, -⟩ := fetch_ok hfetch
  refine ⟨i, t, hfetch, hwf, ht, fun hdev => ?_⟩
  obtain ⟨j, rest, hdec⟩ :=
    everyBitStringDecodes s.cfg.pushForm (Memory.readBits s.mem s.pc.toNat 80) (by rw [Memory.readBits_length])
  have hstands : StandsAtPc s j := standsAtPc_of_decode hroom hdev hdec
  rw [fetch_of_standsAtPc hv hstands] at hfetch
  cases hfetch
  exact ⟨hstands, setCtr_io ..⟩

/-- Settles O30: in each case a fetch that completed would have read an instruction that does not fit. -/
theorem fetchFaultPrecedesEveryOther : Obligations.FetchFaultPrecedesEveryOther := by
  intro s hv hmem hs
  refine ⟨fun hshort => step_of_fetch_not_ok hv hs ?_, fun i hi hlong hdev hbits => step_of_fetch_not_ok hv hs ?_,
    fun i t => encode_inMemory_of_fetch_ok hmem⟩
  · intro i t hfetch
    have hin := encode_inMemory_of_fetch_ok hmem hfetch
    have hlen := encode_length_bounds i
    omega
  · intro j t hfetch
    have hin := encode_inMemory_of_fetch_ok hmem hfetch
    obtain ⟨rest, hrun⟩ := runList_of_fetchWith hmem (pc_le_of_fetch_ok hfetch) hdev hfetch
    obtain ⟨hread, hj⟩ := decode_ok hrun
    obtain ⟨m, hm⟩ := hbits
    have hsame : encode i ++ [] = encode j ++ (rest ++ m) := by
      rw [List.append_nil, ← hm, hread, List.append_assoc]
    obtain ⟨rfl, -⟩ := encode_append_inj hi hj hsame
    omega

/-- Settles O26: a reserved code word is all opcode and raises its own fault; any other fault of an instruction is that
of a data access. -/
theorem reservedOpcodesStop : Obligations.ReservedOpcodesStop := by
  refine ⟨fun s i b hb => ⟨fun f rest hwf => ?_, exec_of_reservedBits hb s⟩,
    fun s => ⟨exec_of_reservedBits rfl s, exec_of_reservedBits rfl s, exec_of_reservedBits rfl s⟩,
    fun s i b hr h => ?_⟩
  · rw [← encode_of_reservedBits hb]
    exact decode_encode hwf rest
  · obtain ⟨addr, haddr⟩ := exec_fault_of_not_reserved hr h
    cases haddr

end Sys2Proof.Proofs
end

section
/-! SUPPORT. The value of every form of a constant and of an address, and words that a shorter form holds (R86 to R88). -/

namespace Sys2Proof.Machine

/-! ## What a form stands for -/

theorem zextConst_k1_toNat (b : BitVec 1) : (zextConst (.k1 b)).toNat = b.toNat :=
  BitVec.toNat_setWidth_of_le (by decide)

theorem zextConst_k8_toNat (b : BitVec 8) : (zextConst (.k8 b)).toNat = b.toNat :=
  BitVec.toNat_setWidth_of_le (by decide)

theorem zextConst_k32_toNat (b : BitVec 32) : (zextConst (.k32 b)).toNat = b.toNat :=
  BitVec.toNat_setWidth_of_le (by decide)

/-- The 1-bit form is 0 or 1 under both extensions (D5). -/
theorem sextConst_k1 (b : BitVec 1) : sextConst (.k1 b) = zextConst (.k1 b) := rfl

theorem sextConst_k8_toInt (b : BitVec 8) : (sextConst (.k8 b)).toInt = b.toInt :=
  BitVec.toInt_signExtend_of_le (by decide)

theorem sextConst_k32_toInt (b : BitVec 32) : (sextConst (.k32 b)).toInt = b.toInt :=
  BitVec.toInt_signExtend_of_le (by decide)

theorem addrValue_a8_toInt (b : BitVec 8) : (addrValue (.a8 b)).toInt = b.toInt :=
  BitVec.toInt_signExtend_of_le (by decide)

theorem addrValue_a16_toInt (b : BitVec 16) : (addrValue (.a16 b)).toInt = b.toInt :=
  BitVec.toInt_signExtend_of_le (by decide)

theorem addrValue_a32_toInt (b : BitVec 32) : (addrValue (.a32 b)).toInt = b.toInt :=
  BitVec.toInt_signExtend_of_le (by decide)

/-! ## Which words a form holds -/

/-- A word below `2^n` is the zero extension of its low `n` bits. -/
theorem setWidth_setWidth_of_toNat_lt {n : Nat} {u : Word} (h : u.toNat < 2 ^ n) :
    (u.setWidth n).setWidth 64 = u := by
  apply BitVec.eq_of_toNat_eq
  rw [BitVec.toNat_setWidth, BitVec.toNat_setWidth, Nat.mod_eq_of_lt h, Nat.mod_eq_of_lt u.isLt]

/-- A word from `-2^m` to `2^m - 1` is the sign extension of its low `m + 1` bits. -/
theorem signExtend_setWidth_of_toInt {m : Nat} {u : Word} (hm : m < 64) (hlow : -2 ^ m ≤ u.toInt)
    (hhigh : u.toInt < 2 ^ m) : (u.setWidth (m + 1)).signExtend 64 = u := by
  apply BitVec.eq_of_toInt_eq
  have hdvd : 2 ^ (m + 1) ∣ 2 ^ 64 := Nat.pow_dvd_pow 2 hm
  rw [BitVec.toInt_signExtend_of_le hm, BitVec.toInt_setWidth, ← Int.bmod_bmod_of_dvd hdvd,
    ← BitVec.toInt_eq_toNat_bmod]
  apply Int.bmod_eq_of_le <;> push_cast <;> rw [pow_succ] <;> omega

/-- The low `n` bits of a sign extension are the value extended. -/
theorem setWidth_signExtend_self {n : Nat} (b : BitVec n) (hn : n ≤ 64) : (b.signExtend 64).setWidth n = b := by
  apply BitVec.eq_of_toInt_eq
  rw [BitVec.toInt_setWidth, ← Int.bmod_bmod_of_dvd (Nat.pow_dvd_pow 2 hn), ← BitVec.toInt_eq_toNat_bmod,
    BitVec.toInt_signExtend_of_le hn, BitVec.toInt_bmod_cancel]

theorem toNat_lt_two_of_toInt {u : Word} (h0 : 0 ≤ u.toInt) (h1 : u.toInt ≤ 1) : u.toNat < 2 := by
  rw [BitVec.toInt_eq_toNat_cond] at h0 h1
  split at h1 <;> omega

end Sys2Proof.Machine
end

section
/-! SUPPORT. The assembler's sizing (R111): the form chosen has the value written, and no shorter one does. -/

namespace Sys2Proof.Machine

/-! ## Constants -/

/-- No constant has a longer code than the 64-bit form. -/
theorem const_bits_length_le_k64 (k : Const) (b : BitVec 64) : k.bits.length ≤ (Const.k64 b).bits.length := by
  have hk := k.bits_length
  have hb : (Const.k64 b).bits.length = 67 := by simp [Const.bits]
  omega

theorem zextConst_sizeConstZ (v : Int) : zextConst (sizeConstZ v) = BitVec.ofInt 64 v := by
  simp only [sizeConstZ]
  split_ifs with h1 h8 h32
  · exact setWidth_setWidth_of_toNat_lt (n := 1) h1
  · exact setWidth_setWidth_of_toNat_lt h8
  · exact setWidth_setWidth_of_toNat_lt h32
  · rfl

theorem sizeConstZ_length_le {v : Int} {k : Const} (h : zextConst k = BitVec.ofInt 64 v) :
    (sizeConstZ v).bits.length ≤ k.bits.length := by
  cases k with
  | k1 b =>
    have hv : (BitVec.ofInt 64 v).toNat < 2 := by rw [← h, zextConst_k1_toNat]; exact b.isLt
    simp only [sizeConstZ, if_pos hv]
    simp [Const.bits]
  | k8 b =>
    have hv : (BitVec.ofInt 64 v).toNat < 2 ^ 8 := by rw [← h, zextConst_k8_toNat]; exact b.isLt
    simp only [sizeConstZ, if_pos hv]
    split <;> simp [Const.bits]
  | k32 b =>
    have hv : (BitVec.ofInt 64 v).toNat < 2 ^ 32 := by rw [← h, zextConst_k32_toNat]; exact b.isLt
    simp only [sizeConstZ, if_pos hv]
    split_ifs <;> simp [Const.bits]
  | k64 b => exact const_bits_length_le_k64 _ b

theorem sextConst_sizeConstS (v : Int) : sextConst (sizeConstS v) = BitVec.ofInt 64 v := by
  simp only [sizeConstS]
  split_ifs with h1 h8 h32
  · exact setWidth_setWidth_of_toNat_lt (n := 1) (toNat_lt_two_of_toInt h1.1 h1.2)
  · exact signExtend_setWidth_of_toInt (m := 7) (by decide) h8.1 h8.2
  · exact signExtend_setWidth_of_toInt (m := 31) (by decide) h32.1 h32.2
  · rfl

theorem sizeConstS_length_le {v : Int} {k : Const} (h : sextConst k = BitVec.ofInt 64 v) :
    (sizeConstS v).bits.length ≤ k.bits.length := by
  cases k with
  | k1 b =>
    have hv : 0 ≤ (BitVec.ofInt 64 v).toInt ∧ (BitVec.ofInt 64 v).toInt ≤ 1 := by
      have hb : (sextConst (.k1 b)).toNat < 2 := by rw [sextConst_k1, zextConst_k1_toNat]; exact b.isLt
      rw [← h, BitVec.toInt_eq_toNat_of_lt (by omega)]
      omega
    simp only [sizeConstS, if_pos hv]
    simp [Const.bits]
  | k8 b =>
    have hv : -2 ^ 7 ≤ (BitVec.ofInt 64 v).toInt ∧ (BitVec.ofInt 64 v).toInt < 2 ^ 7 := by
      rw [← h, sextConst_k8_toInt]
      exact ⟨b.le_toInt, b.toInt_lt⟩
    simp only [sizeConstS, if_pos hv]
    split <;> simp [Const.bits]
  | k32 b =>
    have hv : -2 ^ 31 ≤ (BitVec.ofInt 64 v).toInt ∧ (BitVec.ofInt 64 v).toInt < 2 ^ 31 := by
      rw [← h, sextConst_k32_toInt]
      exact ⟨b.le_toInt, b.toInt_lt⟩
    simp only [sizeConstS, if_pos hv]
    split_ifs <;> simp [Const.bits]
  | k64 b => exact const_bits_length_le_k64 _ b

/-! ## Addresses -/

theorem fitsAddr_iff {w : AddrWidth} {u : Word} : fitsAddr w u = true ↔ addrValue (addrOfWidth w u) = u := by
  simp [fitsAddr]

theorem fitsAddr_shortestWidth (u : Word) : fitsAddr (shortestWidth u) u = true := by
  simp only [shortestWidth]
  split_ifs with h8 h16 h32
  · exact h8
  · exact h16
  · exact h32
  · exact fitsAddr_iff.2 rfl

/-- Every form of an address is the one its width gives for its value. -/
theorem exists_addrOfWidth_addrValue (x : Addr) : ∃ w, addrOfWidth w (addrValue x) = x := by
  cases x with
  | a8 b => exact ⟨.w8, congrArg Addr.a8 (setWidth_signExtend_self b (by decide))⟩
  | a16 b => exact ⟨.w16, congrArg Addr.a16 (setWidth_signExtend_self b (by decide))⟩
  | a32 b => exact ⟨.w32, congrArg Addr.a32 (setWidth_signExtend_self b (by decide))⟩
  | a64 b => exact ⟨.w64, rfl⟩

/-- The length of an address's code depends on its width only. -/
theorem addrOfWidth_bits_length (w : AddrWidth) (u v : Word) :
    (addrOfWidth w u).bits.length = (addrOfWidth w v).bits.length := by
  cases w <;> simp [addrOfWidth, Addr.bits]

/-- The width chosen is the shortest of those that fit. -/
theorem shortestWidth_length_le {w : AddrWidth} {u : Word} (h : fitsAddr w u = true) :
    (addrOfWidth (shortestWidth u) u).bits.length ≤ (addrOfWidth w u).bits.length := by
  simp only [shortestWidth]
  cases w with
  | w8 => rw [if_pos h]
  | w16 => rw [if_pos h]; split <;> simp [addrOfWidth, Addr.bits]
  | w32 => rw [if_pos h]; split_ifs <;> simp [addrOfWidth, Addr.bits]
  | w64 => split_ifs <;> simp [addrOfWidth, Addr.bits]

theorem addrValue_sizeAddr (v : Int) : addrValue (sizeAddr v) = BitVec.ofInt 64 v :=
  fitsAddr_iff.1 (fitsAddr_shortestWidth _)

theorem sizeAddr_length_le {v : Int} {x : Addr} (h : addrValue x = BitVec.ofInt 64 v) :
    (sizeAddr v).bits.length ≤ x.bits.length := by
  obtain ⟨w, hw⟩ := exists_addrOfWidth_addrValue x
  rw [h] at hw
  have hfits : fitsAddr w (BitVec.ofInt 64 v) = true := fitsAddr_iff.2 (by rw [hw, h])
  have hle := shortestWidth_length_le hfits
  rwa [hw] at hle

/-! ## Shift amounts -/

theorem shiftAmount_lt (h : ShiftVal) : shiftAmount h < 64 := by
  cases h with
  | one => decide
  | amount h => exact h.isLt

/-- An amount below 64 has a form, and no form of it is shorter. -/
theorem sizeShift_of_lt {n : Nat} (hn : n < 64) : ∃ h, sizeShift n = some h ∧ shiftAmount h = n ∧
    ∀ g, shiftAmount g = n → h.bits.length ≤ g.bits.length := by
  by_cases h1 : n = 1
  · refine ⟨.one, if_pos h1, h1.symm, fun g _ => ?_⟩
    have hg := g.bits_length
    show 1 ≤ g.bits.length
    omega
  · refine ⟨.amount (BitVec.ofNat 6 n), by rw [sizeShift, if_neg h1, if_pos hn], Nat.mod_eq_of_lt hn, fun g hg => ?_⟩
    cases g with
    | one => exact absurd hg.symm h1
    | amount a => simp [ShiftVal.bits]

theorem sizeShift_of_ge {n : Nat} (hn : 64 ≤ n) : sizeShift n = none := by
  rw [sizeShift, if_neg (by omega), if_neg (by omega)]

end Sys2Proof.Machine
end

section
/-! SUPPORT. What the assembler places for a label (R106). -/

namespace Sys2Proof.Machine

/-- The length of a label use depends on the width of its operand only. -/
theorem encode_withAddr_length (u : LabelUse) (w : AddrWidth) (x y : Word) :
    (encode (u.withAddr (addrOfWidth w x))).length = (encode (u.withAddr (addrOfWidth w y))).length := by
  have hlen := addrOfWidth_bits_length w x y
  cases u <;> simp [LabelUse.withAddr, encode, hlen]

/-- What is placed for a label use: its instruction, with an operand that has the label's value (R106). -/
theorem emitItem_toLabel_ok {env : List (Name × Nat)} {p : Nat} {u : LabelUse} {l : Name} {w : AddrWidth}
    {bits : List Bool} (h : emitItem env p (.toLabel u l) w = .ok bits) :
    ∃ n x, env.lookup l = some n ∧ bits = encode (u.withAddr x) ∧ addrValue x = u.value n (p + bits.length) := by
  simp only [emitItem] at h
  split at h
  · next n hn =>
    split_ifs at h with hfits
    cases h
    refine ⟨n, _, hn, rfl, ?_⟩
    rw [fitsAddr_iff.1 hfits, encode_withAddr_length u w _ 0]
    rfl
  · cases h

/-- Where the label use goes, if its operand has the label's value (R106, R181, R183). -/
theorem LabelUse.value_reaches (u : LabelUse) (n after : Nat) :
    (u = .call → u.value n after = BitVec.ofNat 64 n) ∧
    (u ≠ .call → BitVec.ofNat 64 after + u.value n after = BitVec.ofNat 64 n) := by
  cases u with
  | call => exact ⟨fun _ => rfl, fun h => absurd rfl h⟩
  | jump | jumpif => exact ⟨nofun, fun _ => add_sub_cancel ..⟩

end Sys2Proof.Machine
end

section
/-! The statements of operands and of the assembler (spec/30_encoding.md R84 to R93, R106, R111). -/

namespace Sys2Proof.Proofs

open Sys2Proof.Machine

/-- Settles O51 (R86, R87): the value of each form by the lemma about its extension. -/
theorem constantValues : Obligations.ConstantValues :=
  ⟨fun b => ⟨zextConst_k1_toNat b, zextConst_k1_toNat b, rfl⟩,
    fun b => ⟨zextConst_k8_toNat b, sextConst_k8_toInt b, rfl⟩,
    fun b => ⟨zextConst_k32_toNat b, sextConst_k32_toInt b, rfl⟩, fun _ => ⟨rfl, rfl, rfl⟩⟩

/-- Settles O52 (R88): sign extension keeps the payload's signed value. -/
theorem addressValuesAreSigned : Obligations.AddressValuesAreSigned :=
  ⟨fun b => ⟨addrValue_a8_toInt b, rfl⟩, fun b => ⟨addrValue_a16_toInt b, rfl⟩,
    fun b => ⟨addrValue_a32_toInt b, rfl⟩, fun _ => ⟨rfl, rfl⟩⟩

/-- Settles O53 (R85, R89 to R93): each code is the one its definition writes out, for the numbers of a register, a
condition and a counter by going through them. -/
theorem operandCodes : Obligations.OperandCodes := by
  refine ⟨by decide, by decide, by decide, rfl, rfl, rfl, rfl, fun _ => ⟨rfl, rfl⟩, shiftAmount_lt, ?_⟩
  exact ⟨⟨rfl, rfl⟩, ⟨rfl, rfl⟩, ⟨rfl, rfl⟩, ⟨rfl, rfl⟩, ⟨rfl, rfl⟩, rfl, rfl⟩

/-- Settles O58 (R111): a form whose range holds the value is at least as long as the one chosen. -/
theorem constantsAreSizedShortest : Obligations.ConstantsAreSizedShortest :=
  fun v => ⟨zextConst_sizeConstZ v, fun _ => sizeConstZ_length_le, sextConst_sizeConstS v, fun _ => sizeConstS_length_le⟩

/-- Settles O59 (R89, R111): the width chosen is the first that fits, and amount 1 alone has the short code. -/
theorem addressesAndAmountsAreSizedShortest : Obligations.AddressesAndAmountsAreSizedShortest :=
  ⟨fun v => ⟨addrValue_sizeAddr v, fun _ => sizeAddr_length_le⟩, fun _ => sizeShift_of_lt, fun _ => sizeShift_of_ge⟩

/-- Settles O60 (R106): the operand placed has the label's value, and that value is the way to the label. -/
theorem labelUsesReachTheirLabel : Obligations.LabelUsesReachTheirLabel := by
  intro env p u l w bits h
  obtain ⟨n, x, hlookup, hbits, hx⟩ := emitItem_toLabel_ok h
  obtain ⟨hcall, hjump⟩ := u.value_reaches n (p + bits.length)
  exact ⟨n, x, hlookup, hbits, by rwa [hx], by rwa [hx]⟩

end Sys2Proof.Proofs
end

section
/-! SUPPORT. The flags of a sum and of a difference in terms of integers, and the conditions over them (R10, R27 to R30,
R91). -/

namespace Sys2Proof.Machine

open Sys2Proof.Claims

/-- Flags `z` and `n` computed from a result are those of the result (R27). -/
theorem zn_of_eq {f : Flags} {r : Word} (hz : f.z = (r == 0)) (hn : f.n = r.msb) : ZN f r := by
  constructor
  · rw [hz, beq_iff_eq, BitVec.toNat_eq]
    rfl
  · rw [hn, BitVec.msb_eq_toInt, decide_eq_true_iff]

/-! ## Signed overflow (R29) -/

theorem saddOverflow_iff (x y : Word) : x.saddOverflow y = true ↔ SignedOverflow (x.toInt + y.toInt) := by
  simp only [BitVec.saddOverflow, SignedOverflow, Bool.or_eq_true, decide_eq_true_iff]
  exact or_comm

theorem ssubOverflow_iff (x y : Word) : x.ssubOverflow y = true ↔ SignedOverflow (x.toInt - y.toInt) := by
  simp only [BitVec.ssubOverflow, SignedOverflow, Bool.or_eq_true, decide_eq_true_iff]
  exact or_comm

/-- The two formulas of R10 for `v` on the sign bits are the library's overflow tests. -/
theorem addFlags_v (x y : Word) : (addFlags x y).2.v = x.saddOverflow y := by
  rw [BitVec.saddOverflow_eq]
  simp only [addFlags]
  cases x.msb <;> cases (x + y).msb <;> rfl

theorem subFlags_v (x y : Word) : (subFlags x y).2.v = x.ssubOverflow y := by
  rw [BitVec.ssubOverflow_eq]
  simp only [subFlags]
  cases x.msb <;> cases y.msb <;> cases (x - y).msb <;> rfl

/-! ## `AddFlags` and `SubFlags` (R10) -/

theorem addFlags_addSets (x y : Word) : AddSets (addFlags x y).2 x y :=
  ⟨zn_of_eq rfl rfl, decide_eq_true_iff, by rw [addFlags_v, saddOverflow_iff]⟩

theorem subFlags_subSets (x y : Word) : SubSets (subFlags x y).2 x y :=
  ⟨zn_of_eq rfl rfl, decide_eq_true_iff, by rw [subFlags_v, ssubOverflow_iff]⟩

/-! ## The conditions of Table 3 (R91) -/

/-- A condition holds where its implementation in Table 3 does (R91). -/
theorem condHolds_iff_tableThree (f : Flags) (cc : Cond) : condHolds f cc = true ↔ TableThree f cc := by
  cases cc <;> simp [condHolds, TableThree]

/-- Wrapped to 64 bits, an integer of 65 bits keeps its sign exactly where it does not overflow. -/
theorem bmod_neg_iff_signedOverflow {a : Int} (hlow : -2 ^ 64 ≤ a) (hhigh : a < 2 ^ 64) :
    (a.bmod (2 ^ 64) < 0 ↔ SignedOverflow a) ↔ 0 ≤ a := by
  simp only [Int.bmod_def, SignedOverflow]
  split <;> omega

variable {f : Flags} {x y : Word}

/-- After a comparison `z` says that the operands are equal (R27). -/
theorem z_iff_of_subSets (h : SubSets f x y) : f.z = true ↔ x = y := by
  obtain ⟨⟨hz, -⟩, -⟩ := h
  rw [hz, ← BitVec.toNat_zero, ← BitVec.toNat_eq, BitVec.sub_eq_iff_eq_add, BitVec.zero_add]

/-- After a comparison `n` is the sign of the exact difference unless `v` says that the difference overflowed. -/
theorem n_eq_v_iff_of_subSets (h : SubSets f x y) : f.n = f.v ↔ y.toInt ≤ x.toInt := by
  obtain ⟨⟨-, hn⟩, -, hv⟩ := h
  have hx := x.le_toInt
  have hx' := x.toInt_lt
  have hy := y.le_toInt
  have hy' := y.toInt_lt
  rw [Bool.eq_iff_iff, hn, hv, BitVec.toInt_sub, bmod_neg_iff_signedOverflow (by omega) (by omega), Int.sub_nonneg]

end Sys2Proof.Machine
end

section
/-! SUPPORT. What an arithmetic instruction does, by the function of R10 that it calls; bits of an encoding written in
one row. -/

namespace Sys2Proof.Claims

open Sys2Proof.Machine

variable {i : Instr} {s : State} {d : Reg} {x y : Word}

theorem encodes_encode (i : Instr) : Encodes i (encode i) := fun _ rest h => decode_encode h rest

/-- The bits of an instruction with two operands. -/
theorem encodes_of_two {o a b : List Bool} (h : encode i = o ++ (a ++ b)) : Encodes i (o ++ a ++ b) := by
  rw [List.append_assoc, ← h]
  exact encodes_encode i

/-- The bits of an instruction with three operands. -/
theorem encodes_of_three {o a b c : List Bool} (h : encode i = o ++ (a ++ (b ++ c))) :
    Encodes i (o ++ a ++ b ++ c) := by
  rw [List.append_assoc]
  exact encodes_of_two h

theorem adds_of_exec (h : exec i s = .next (s.writeAlu d (addFlags x y))) : Adds i s d x y :=
  ⟨_, h, writeAlu_reg_same .., addFlags_addSets x y, .writeAlu (.refl s) rfl⟩

theorem subtracts_of_exec (h : exec i s = .next (s.writeAlu d (subFlags x y))) : Subtracts i s d x y :=
  ⟨_, h, writeAlu_reg_same .., subFlags_subSets x y, .writeAlu (.refl s) rfl⟩

theorem compares_of_exec (h : exec i s = .next (s.setFlags (subFlags x y).2)) : Compares i s x y :=
  ⟨_, h, subFlags_subSets x y, .setFlags (.refl s)⟩

end Sys2Proof.Claims
end

section
/-! The statements of arithmetic (spec/40_alu_arith.md). -/

namespace Sys2Proof.Proofs

open Sys2Proof.Machine Sys2Proof.Claims

/-- Settles O1: both forms write what `AddFlags` answers for their two source registers. -/
theorem addRegistersWritesSumAndFlags : Obligations.AddRegistersWritesSumAndFlags :=
  fun _ _ _ _ => ⟨encodes_of_two rfl, adds_of_exec rfl, encodes_of_three rfl, adds_of_exec rfl⟩

/-- Settles O2: both forms write what `AddFlags` answers for a register and the zero-extended constant. -/
theorem addConstantWritesSumAndFlags : Obligations.AddConstantWritesSumAndFlags :=
  fun _ _ _ _ => ⟨encodes_of_two rfl, adds_of_exec rfl, encodes_of_three rfl, adds_of_exec rfl⟩

/-- Settles O3: both forms write what `SubFlags` answers for their two source registers. -/
theorem subRegistersWritesDifferenceAndFlags : Obligations.SubRegistersWritesDifferenceAndFlags :=
  fun _ _ _ _ => ⟨encodes_of_two rfl, subtracts_of_exec rfl, encodes_of_three rfl, subtracts_of_exec rfl⟩

/-- Settles O4: both forms write what `SubFlags` answers for a register and the zero-extended constant. -/
theorem subConstantWritesDifferenceAndFlags : Obligations.SubConstantWritesDifferenceAndFlags :=
  fun _ _ _ _ => ⟨encodes_of_two rfl, subtracts_of_exec rfl, encodes_of_three rfl, subtracts_of_exec rfl⟩

/-- Settles O5: both forms set the flags that `SubFlags` answers, and these alone. -/
theorem compareWritesFlagsOnly : Obligations.CompareWritesFlagsOnly :=
  fun _ _ _ _ => ⟨encodes_of_two rfl, compares_of_exec rfl, encodes_of_two rfl, compares_of_exec rfl⟩

/-- Settles O6: Table 3's formulas over the flags of the difference, where `z` is equality, `c` the unsigned order and
`n = v` the signed order. -/
theorem conditionsAfterComparisonAreExact : Obligations.ConditionsAfterComparisonAreExact := by
  intro x y f
  have hf : SubSets f x y := subFlags_subSets x y
  have hz := z_iff_of_subSets hf
  have hnv := n_eq_v_iff_of_subSets hf
  obtain ⟨-, hc, hv⟩ := hf
  simp only [condHolds_iff_tableThree, TableThree, ne_eq, ← Bool.not_eq_true, hz, hnv, hc, hv, true_and, and_true]
  refine ⟨?sgt, Int.not_le, ?gt, Nat.not_lt⟩
  case sgt =>
    rw [← BitVec.toInt_inj]
    omega
  case gt =>
    rw [BitVec.toNat_eq]
    omega

end Sys2Proof.Proofs
end

section
/-! SUPPORT. What a logic instruction does, by the result it hands to `LogicFlags` (R10, R150). -/

namespace Sys2Proof.Claims

open Sys2Proof.Machine

variable {i : Instr} {s : State} {d : Reg} {x y : Word}

/-- A logic instruction combines bit by bit with `op` where its result does: `LogicFlags` sets the flags of R150. -/
theorem combines_of_exec {op : Bool → Bool → Bool} {r : Word}
    (h : exec i s = .next (s.writeAlu d (logicFlags s.cfg s.flags r)))
    (hr : ∀ j, r.getLsbD j = op (x.getLsbD j) (y.getLsbD j)) : Combines i op s d x y :=
  have hd : (s.writeAlu d (logicFlags s.cfg s.flags r)).reg d = r := writeAlu_reg_same ..
  ⟨_, h, fun j _ => by rw [hd, hr], by rw [hd]; exact zn_of_eq rfl rfl, rfl, rfl, .writeAlu (.refl s) rfl⟩

theorem combines_or_of_exec (h : exec i s = .next (s.writeAlu d (logicFlags s.cfg s.flags (x ||| y)))) :
    Combines i or s d x y :=
  combines_of_exec h fun _ => BitVec.getLsbD_or

theorem combines_and_of_exec (h : exec i s = .next (s.writeAlu d (logicFlags s.cfg s.flags (x &&& y)))) :
    Combines i and s d x y :=
  combines_of_exec h fun _ => BitVec.getLsbD_and

theorem combines_xor_of_exec (h : exec i s = .next (s.writeAlu d (logicFlags s.cfg s.flags (x ^^^ y)))) :
    Combines i xor s d x y :=
  combines_of_exec h fun _ => BitVec.getLsbD_xor

end Sys2Proof.Claims
end

section
/-! The statements of logic (spec/41_alu_logic.md). -/

namespace Sys2Proof.Proofs

open Sys2Proof.Machine Sys2Proof.Claims

/-- Settles O7: each form hands `LogicFlags` the combination of its two source registers. -/
theorem logicRegistersCombineBitByBit : Obligations.LogicRegistersCombineBitByBit :=
  fun _ _ _ _ =>
    ⟨encodes_of_two rfl, combines_or_of_exec rfl, encodes_of_two rfl, combines_and_of_exec rfl,
      encodes_of_three rfl, combines_and_of_exec rfl, encodes_of_three rfl, combines_or_of_exec rfl,
      encodes_of_three rfl, combines_xor_of_exec rfl⟩

/-- Settles O8: each form hands `LogicFlags` the combination of a register and the zero-extended constant. -/
theorem logicConstantsCombineBitByBit : Obligations.LogicConstantsCombineBitByBit :=
  fun _ _ _ _ =>
    ⟨encodes_of_two rfl, combines_or_of_exec rfl, encodes_of_two rfl, combines_and_of_exec rfl,
      encodes_of_three rfl, combines_and_of_exec rfl, encodes_of_three rfl, combines_or_of_exec rfl,
      encodes_of_three rfl, combines_xor_of_exec rfl⟩

end Sys2Proof.Proofs
end

section
/-! SUPPORT. What a shift does, by the result and the last bit out it hands to `shiftFlags` (R30(c), R170), and the bits
and the value of each result (R173, R174). -/

namespace Sys2Proof.Machine

open Sys2Proof.Claims

/-! ## Flag `c` (R30(c)) -/

theorem shiftCarry_of_pos {cfg : Config} {old : Flags} {k : Nat} {out : Bool} (hk : 1 ≤ k) :
    shiftCarry cfg old k out = out :=
  if_neg (Nat.one_le_iff_ne_zero.1 hk)

theorem shiftCarry_zero_of_const {cfg : Config} {old : Flags} {out b : Bool} (h : cfg.cShift0 = .const b) :
    shiftCarry cfg old 0 out = b := by
  simp [shiftCarry, h]

theorem shiftCarry_zero_of_keep {cfg : Config} {old : Flags} {out : Bool} (h : cfg.cShift0 = .keep) :
    shiftCarry cfg old 0 out = old.c := by
  simp [shiftCarry, h]

theorem shiftSetsC_of_eq {s t : State} {k : Nat} {out : Bool} (hc : t.flags.c = shiftCarry s.cfg s.flags k out) :
    ShiftSetsC s t k out := by
  refine ⟨fun hk => hc.trans (shiftCarry_of_pos hk), ?_⟩
  rintro rfl
  exact ⟨fun _ hb => hc.trans (shiftCarry_zero_of_const hb), fun hkeep => hc.trans (shiftCarry_zero_of_keep hkeep)⟩

/-- Whatever the result `r` and the last bit out, `shiftFlags` sets the flags of R170 and only `d` is written. -/
theorem shiftEffect_writeAlu (s : State) (d : Reg) (k : Nat) (r : Word) (out : Bool) :
    ShiftEffect s (s.writeAlu d (shiftFlags s.cfg s.flags k r out)) d k out :=
  have hd : (s.writeAlu d (shiftFlags s.cfg s.flags k r out)).reg d = r := writeAlu_reg_same ..
  ⟨by rw [hd]; exact zn_of_eq rfl rfl, shiftSetsC_of_eq rfl, rfl, .writeAlu (.refl s) rfl⟩

/-! ## The results, bit by bit and as a quotient (R173, R174) -/

theorem getLsbD_shiftLeft_of_lt (x : Word) (k : Nat) {j : Nat} (hj : j < 64) :
    (x <<< k).getLsbD j = if k ≤ j then x.getLsbD (j - k) else false := by
  rw [BitVec.getLsbD_shiftLeft]
  split
  · next hkj => simp [hj, hkj]
  · next hkj => simp [Nat.not_le.1 hkj]

theorem getLsbD_ushiftRight_eq_ite (x : Word) (k j : Nat) :
    (x >>> k).getLsbD j = if j + k < 64 then x.getLsbD (j + k) else false := by
  rw [BitVec.getLsbD_ushiftRight, Nat.add_comm]
  split
  · rfl
  · next hout => exact x.getLsbD_of_ge _ (Nat.not_lt.1 hout)

theorem getLsbD_sshiftRight_of_lt (x : Word) (k : Nat) {j : Nat} (hj : j < 64) :
    (x.sshiftRight k).getLsbD j = if j + k ≤ 63 then x.getLsbD (j + k) else x.getLsbD 63 := by
  rw [BitVec.getLsbD_sshiftRight, decide_eq_false (Nat.not_le.2 hj), Bool.not_false, Bool.true_and,
    BitVec.msb_eq_getLsbD_last, Nat.add_comm k j]
  exact if_congr Nat.lt_succ_iff rfl rfl

/-- The library's shift of an integer is its quotient by a positive power of two, where rounding toward minus infinity
and the library's `/` agree. -/
theorem toInt_sshiftRight_eq_fdiv (x : Word) (k : Nat) : (x.sshiftRight k).toInt = Int.fdiv x.toInt (2 ^ k) := by
  have hpos : (0 : Int) ≤ 2 ^ k := Int.pow_nonneg (by decide)
  rw [BitVec.toInt_sshiftRight, Int.shiftRight_eq_div_pow, Int.fdiv_eq_ediv_of_nonneg _ hpos, Nat.cast_pow,
    Nat.cast_ofNat]

end Sys2Proof.Machine
end

section
/-! The statements of moves and shifts (spec/42_move_shift.md). -/

namespace Sys2Proof.Proofs

open Sys2Proof.Machine Sys2Proof.Claims

/-- Settles O9: both forms write one register and nothing else. -/
theorem movesCopyAndKeepFlags : Obligations.MovesCopyAndKeepFlags :=
  fun s _ _ _ =>
    ⟨encodes_of_two rfl, ⟨_, rfl, setReg_reg_same .., rfl, .setReg (.refl s) rfl⟩,
      encodes_of_two rfl, ⟨_, rfl, setReg_reg_same .., rfl, .setReg (.refl s) rfl⟩⟩

/-- Settles O10: each direction writes what the shift of the register answers, which the lemma on its bits describes. -/
theorem logicalShiftMovesBits : Obligations.LogicalShiftMovesBits := by
  intro s d h
  refine ⟨fun x => encodes_of_three rfl, ⟨_, rfl, fun j hj => ?left, shiftEffect_writeAlu ..⟩,
    ⟨_, rfl, fun j _ => ?right, shiftEffect_writeAlu ..⟩⟩
  case left =>
    rw [writeAlu_reg_same]
    exact getLsbD_shiftLeft_of_lt _ _ hj
  case right =>
    rw [writeAlu_reg_same]
    exact getLsbD_ushiftRight_eq_ite _ _ _

/-- Settles O11: `asr3` writes the arithmetic shift of its source, whose value and bits the two lemmas describe. -/
theorem arithmeticShiftDividesTowardMinusInfinity : Obligations.ArithmeticShiftDividesTowardMinusInfinity := by
  intro s d r h
  refine ⟨encodes_of_three rfl, _, rfl, ?value, fun j hj => ?bits, shiftEffect_writeAlu ..⟩
  case value =>
    rw [writeAlu_reg_same]
    exact toInt_sshiftRight_eq_fdiv _ _
  case bits =>
    rw [writeAlu_reg_same]
    exact getLsbD_sshiftRight_of_lt _ _ hj

end Sys2Proof.Proofs
end

section
/-! SUPPORT. What writing `pc` alone does, and `jumpif` by the formulas of Table 3 (R181, R182). -/

namespace Sys2Proof.Machine

open Sys2Proof.Claims

theorem goesTo_setCtr_pc (s : State) (w : Word) : GoesTo s (s.setCtr .pc w) w :=
  ⟨setCtr_pc_pc .., setCtr_flags .., .setCtr (.refl s) rfl⟩

variable {s : State} {cc : Cond}

theorem exec_jumpif_of_tableThree (h : TableThree s.flags cc) (x : Addr) :
    exec (.jumpif cc x) s = .next (s.setCtr .pc (s.pc + addrValue x)) :=
  if_pos ((condHolds_iff_tableThree s.flags cc).2 h)

theorem exec_jumpif_of_not_tableThree (h : ¬ TableThree s.flags cc) (x : Addr) :
    exec (.jumpif cc x) s = .next s :=
  if_neg (mt (condHolds_iff_tableThree s.flags cc).1 h)

end Sys2Proof.Machine
end

section
/-! The statements of branches (spec/43_branch.md). -/

namespace Sys2Proof.Proofs

open Sys2Proof.Machine Sys2Proof.Claims

/-- Settles O12: `jump` writes `pc` and nothing else. -/
theorem jumpAddsDisplacement : Obligations.JumpAddsDisplacement :=
  fun s _ => ⟨encodes_encode _, _, rfl, goesTo_setCtr_pc s _⟩

/-- Settles O13: the model's test of the flags is Table 3's formula, so the two cases are its two branches. -/
theorem jumpifJumpsExactlyWhenConditionHolds : Obligations.JumpifJumpsExactlyWhenConditionHolds := by
  intro s cc x
  refine ⟨encodes_of_two rfl, ?_⟩
  by_cases hcond : TableThree s.flags cc
  · exact ⟨_, exec_jumpif_of_tableThree hcond x, fun _ => goesTo_setCtr_pc s _, fun hnot => absurd hcond hnot⟩
  · exact ⟨s, exec_jumpif_of_not_tableThree hcond x, fun hholds => absurd hholds hcond, fun _ => rfl⟩

/-- Settles O14: `call` writes `r7` and then `pc`, which leaves `r7` as written. -/
theorem callLinksAndGoesToAbsoluteTarget : Obligations.CallLinksAndGoesToAbsoluteTarget := by
  intro s x
  refine ⟨encodes_encode _, _, rfl, ?link, setCtr_pc_pc .., ?flags, .setCtr (.setReg (.refl s) rfl) rfl⟩
  case link => rw [setCtr_reg, setReg_reg_same]
  case flags => rw [setCtr_flags, setReg_flags]

/-- Settles O15: `return` and `setctr pc r7` both write `r7` to `pc`. -/
theorem returnGoesToLinkRegister : Obligations.ReturnGoesToLinkRegister :=
  fun s => ⟨encodes_encode .ret, ⟨_, rfl, goesTo_setCtr_pc s _⟩, ⟨_, rfl, rfl⟩⟩

end Sys2Proof.Proofs
end

section
/-! SUPPORT. What a data access moves between memory and a register, and what it leaves of the rest of the state (R190
to R199). -/

namespace Sys2Proof.Machine

open Sys2Proof.Claims

theorem sizeBits_bounds (z : Size) : 1 ≤ sizeBits z ∧ sizeBits z ≤ 64 := by cases z <;> decide

/-! ## The value read, extended to a register (R191, R192; D2) -/

variable {n : Nat}

/-- A word whose low `n` bits are the value read holds the bits read. -/
theorem holdsBits_of_getLsbD {s : State} {addr w : Word}
    (h : ∀ i, i < n → w.getLsbD i = (ofBits n (s.bits addr.toNat n)).getLsbD i) : HoldsBits s addr n w := by
  intro j hj
  rw [h _ (by omega), ofBits_bits_getLsbD s addr.toNat hj]

theorem holdsBits_setWidth (s : State) (addr : Word) (hn : n ≤ 64) :
    HoldsBits s addr n ((ofBits n (s.bits addr.toNat n)).setWidth 64) :=
  holdsBits_of_getLsbD fun i hi => by
    rw [BitVec.getLsbD_setWidth, decide_eq_true (Nat.lt_of_lt_of_le hi hn), Bool.true_and]

theorem holdsBits_signExtend (s : State) (addr : Word) (hn : n ≤ 64) :
    HoldsBits s addr n ((ofBits n (s.bits addr.toNat n)).signExtend 64) :=
  holdsBits_of_getLsbD fun i hi => by
    rw [BitVec.getLsbD_signExtend, decide_eq_true (Nat.lt_of_lt_of_le hi hn), Bool.true_and, if_pos hi]

/-- Zero extension fills up with zeros. -/
theorem getLsbD_setWidth_of_le (v : BitVec n) {j : Nat} (hj : n ≤ j) : (v.setWidth 64).getLsbD j = false := by
  rw [BitVec.getLsbD_setWidth, v.getLsbD_of_ge j hj, Bool.and_false]

/-- Sign extension of the value read fills up with the first bit read. -/
theorem getLsbD_signExtend_bits (s : State) (a : Nat) {j : Nat} (hn : 1 ≤ n) (hj : n ≤ j) (hj' : j < 64) :
    ((ofBits n (s.bits a n)).signExtend 64).getLsbD j = s.bit a := by
  rw [BitVec.getLsbD_signExtend, decide_eq_true hj', Bool.true_and, if_neg (Nat.not_lt.2 hj),
    BitVec.msb_eq_getLsbD_last]
  exact ofBits_bits_getLsbD s a hn

/-! ## The state after an access -/

/-- What is left by a read of `n` bits through `k`, whatever word is made of them for `d`. -/
theorem read_effect {s t : State} {k : Ctr} {d : Reg} {w : Word}
    (ht : t = ((s.note (.read (s.ctr k).toNat n)).advance k n).setReg d w) :
    t.ctr k = s.ctr k + BitVec.ofNat 64 n ∧ t.flags = s.flags ∧
      Frame s t (· = d) (· = k) nothing (s.ioAfter (.read (s.ctr k).toNat n)) := by
  subst ht
  refine ⟨?ctr, ?flags, .setReg (.advance (.note s _) rfl) rfl⟩
  case ctr => rw [setReg_ctr, advance_ctr_same, note_ctr]
  case flags => rw [setReg_flags, advance_flags, note_flags]

/-- What is left by a store of the low `n` bits of `w` at `addr` after which counter `k` is given the value `x`. -/
theorem store_effect {s t : State} (hm : Memory.WF s.mem) {addr w x : Word} {k : Ctr}
    (ht : t = (s.stored addr (w.setWidth n)).setCtr k x) :
    StoresBits t addr n w ∧ t.ctr k = x ∧ t.flags = s.flags ∧
      Frame s t nothing (· = k) (bitsAt addr n) (s.ioAfter (.write addr.toNat (toBits (w.setWidth n)))) := by
  subst ht
  refine ⟨fun j hj => ?bits, setCtr_ctr_same .., ?flags, .setCtr (.stored hm addr _) rfl⟩
  case bits =>
    have hlow : n - 1 - j < n := by omega
    rw [setCtr_cell, stored_cell_getLsbD hm addr _ hj, BitVec.getLsbD_setWidth, decide_eq_true hlow, Bool.true_and]
  case flags => rw [setCtr_flags, stored_flags]

/-- A counter that a store leaves alone advances from where it was. -/
theorem stored_advance (s : State) (addr : Word) (v : BitVec n) (k : Ctr) (m : Nat) :
    (s.stored addr v).advance k m = (s.stored addr v).setCtr k (s.ctr k + BitVec.ofNat 64 m) := by
  rw [State.advance, stored_ctr]

/-- Where no device is mapped, a word that holds what a read answers is the word that was stored. -/
theorem eq_of_holdsBits_of_storesBits {t : State} {addr w w' : Word} (hread : HoldsBits t addr 64 w)
    (hstored : StoresBits t addr 64 w') (hd : t.cfg.touchesDevice addr.toNat 64 = false) : w = w' := by
  refine BitVec.eq_of_getLsbD_eq fun i hi => ?_
  obtain ⟨j, hj, rfl⟩ : ∃ j, j < 64 ∧ i = 64 - 1 - j := ⟨63 - i, by omega, by omega⟩
  rw [hread j hj, bit_of_not_device (touchesDevice_false.1 hd j hj), hstored j hj]

/-! ## Data after an instruction (R199) -/

/-- Where there is room for a bit after an instruction at `pc`, the address of that bit has not wrapped. -/
theorem afterFetch_pc_toNat {s : State} (hv : s.cfg.Valid) {i : Instr}
    (hroom : s.pc.toNat + (encode i).length < s.cfg.memBits) :
    (afterFetch s i).pc.toNat = s.pc.toNat + (encode i).length := by
  rcases toNat_add_inMemory hv.2 (Nat.le_of_lt hroom) with hsum | ⟨-, htop, -⟩
  · exact hsum
  · have hle := hv.2
    omega

end Sys2Proof.Machine
end

section
/-! SUPPORT. The machine after a fault: what the fetch had left of it, marked as faulted (R211). -/

namespace Sys2Proof.Machine

open Sys2Proof.Claims

/-- The fault of a reading is that of the field it stopped at (R52, R211). -/
theorem fetchWith_error_eq_memFault {α : Type} {p : BitParser α} {s : State} {f : Fault}
    (h : (fetchWith p s).1 = .error f) : f = .memFault (max (fetchWith p s).2.pc.toNat s.cfg.memBits) := by
  induction p generalizing s with
  | done a => cases h
  | take n k ih =>
    rcases fetchWith_take (s := s) n k with ⟨-, hgo⟩ | ⟨-, hstop⟩
    · rw [hgo] at h ⊢
      exact ih _ h
    · rw [hstop] at h ⊢
      cases h
      rfl

/-- A fetch, complete or not, moves `pc` and adds to the device log, and changes nothing else. -/
theorem fetch_state (s : State) :
    ∃ pc io, s.fetch.2 = { s with pc := pc, io := io } ∧ (s.cfg.devices = [] → io = s.io) := by
  obtain ⟨n, io, hstate, hio⟩ := fetchWith_state (parseInstr s.cfg.pushForm) s
  exact ⟨_, io, hstate, hio⟩

theorem advanceMachine_of_faulted {s : State} {f : Fault} (h : s.status = .faulted f) : s.advanceMachine = s := by
  simp only [State.advanceMachine, h]

theorem advanceMachine_of_fault {s : State} {f : Fault} (hs : s.status = .running) (h : step s = .fault f) :
    s.advanceMachine = s.fetch.2.enterFault f := by
  simp only [State.advanceMachine, hs, h]

end Sys2Proof.Machine
end

section
/-! The statements of memory access and counters (spec/44_memory_counters.md), and what a fault of one leaves
(spec/60_exceptions.md R211, R214). -/

namespace Sys2Proof.Proofs

open Sys2Proof.Machine Sys2Proof.Claims

/-- Settles O19: inside memory `rd` gets the zero extension of the value read, and otherwise the read raises its
fault. -/
theorem readzeZeroExtendsAndAdvances : Obligations.ReadzeZeroExtendsAndAdvances := by
  intro s k z d
  refine ⟨encodes_of_three rfl,
    fun hin => ⟨_, exec_readze_of_inMemory d hin, ?bits, fun j hj => ?fill, read_effect rfl⟩,
    fun hout => exec_of_not_inMemory rfl (Nat.not_le.2 hout)⟩
  case bits =>
    rw [setReg_reg_same]
    exact holdsBits_setWidth s _ (sizeBits_bounds z).2
  case fill =>
    rw [setReg_reg_same]
    exact getLsbD_setWidth_of_le _ hj

/-- Settles O20: inside memory `rd` gets the sign extension of the value read, and otherwise the read raises its
fault. -/
theorem readseSignExtendsAndAdvances : Obligations.ReadseSignExtendsAndAdvances := by
  intro s k z d
  refine ⟨encodes_of_three rfl,
    fun hin => ⟨_, exec_readse_of_inMemory d hin, ?bits, fun j hj hj' => ?fill, read_effect rfl⟩,
    fun hout => exec_of_not_inMemory rfl (Nat.not_le.2 hout)⟩
  case bits =>
    rw [setReg_reg_same]
    exact holdsBits_signExtend s _ (sizeBits_bounds z).2
  case fill =>
    rw [setReg_reg_same]
    exact getLsbD_signExtend_bits s _ (sizeBits_bounds z).1 hj hj'

/-- Settles O21: inside memory the state is that of a store at the counter, which then advances, and otherwise the store
raises its fault. -/
theorem writeStoresLowBitsAndAdvances : Obligations.WriteStoresLowBitsAndAdvances := by
  intro s k z r hm
  exact ⟨encodes_of_three rfl,
    fun hin => ⟨_, exec_write_of_inMemory r hin, store_effect hm (stored_advance ..)⟩,
    fun hout => exec_of_not_inMemory rfl (Nat.not_le.2 hout)⟩

/-- Settles O22: `setctr` writes the counter and nothing else. -/
theorem setctrCopiesRegisterToCounter : Obligations.SetctrCopiesRegisterToCounter :=
  fun s _ _ => ⟨encodes_of_two rfl, _, rfl, setCtr_ctr_same .., setCtr_flags .., .setCtr (.refl s) rfl⟩

/-- Settles O23: `getctr` writes the register and nothing else. -/
theorem getctrCopiesCounterToRegister : Obligations.GetctrCopiesCounterToRegister :=
  fun s _ _ => ⟨encodes_of_two rfl, _, rfl, setReg_reg_same .., rfl, .setReg (.refl s) rfl⟩

/-- Settles O24: inside memory the state is that of a store at `pushAddr s z`, which `sp` then holds, and otherwise the
store raises its fault. -/
theorem pushStoresBelowSp : Obligations.PushStoresBelowSp := by
  intro s z r hm
  exact ⟨encodes_encode _, fun _ => encodes_of_two rfl, rfl, fun _ => rfl,
    fun hin => ⟨_, exec_push_of_inMemory r hin, store_effect hm rfl⟩,
    fun hout => exec_of_not_inMemory rfl (Nat.not_le.2 hout)⟩

/-- Settles O25: `push` leaves `sp` at the bits it stored, so `pop` reads these, and `sp` moves back up. -/
theorem popUndoesPush : Obligations.PopUndoesPush := by
  intro s r d z hm hin hdev
  refine ⟨encodes_of_three rfl, ?_⟩
  obtain ⟨-, -, -, -, hpush, -⟩ := pushStoresBelowSp s none r hm
  obtain ⟨t, ht, hstored, htsp, -, htreg, -, -, -, -, htcfg⟩ := hpush hin
  have hsp : t.ctr .sp = s.sp - 64 := htsp
  obtain ⟨-, hpop, -⟩ := readzeZeroExtendsAndAdvances t .sp .b64 d
  rw [hsp, htcfg] at hpop
  rw [← htcfg] at hdev
  obtain ⟨u, hu, hread, -, husp, -, hureg, -⟩ := hpop hin
  refine ⟨t, u, ht, hu, eq_of_holdsBits_of_storesBits hread hstored hdev, ?sp, fun q hq => ?others⟩
  case sp => exact husp.trans (BitVec.sub_add_cancel s.sp 64)
  case others => rw [hureg q hq, htreg q id]

/-- Settles O57: the `getctr` is 11 bits long and runs with `pc` after it. -/
theorem getctrPcReadsAddressAfterItself : Obligations.GetctrPcReadsAddressAfterItself := by
  intro s d hv hs hstands
  obtain ⟨-, t, hexec, hvalue, -, hreg, hctr, -⟩ := getctrCopiesCounterToRegister (afterFetch s (.getctr .pc d)) .pc d
  have hpc : (afterFetch s (.getctr .pc d)).pc = s.pc + 11 := by simp [afterFetch, encode]
  refine ⟨t, (step_of_fetch hs (fetch_of_standsAtPc hv hstands)).trans hexec, hvalue.trans hpc,
    (hctr .pc id).trans hpc, fun q hq => hreg q hq⟩

/-- Settles O56: the data lie inside memory, so the address after the instruction has not wrapped, and `readze` runs
with `pc` there. -/
theorem readThroughPcTakesInlineData : Obligations.ReadThroughPcTakesInlineData := by
  intro s z d hv hs hstands hroom
  have hpc : ((afterFetch s (.readze .pc z d)).ctr .pc).toNat = s.pc.toNat + (encode (.readze .pc z d)).length := by
    have hsize := (sizeBits_bounds z).1
    exact afterFetch_pc_toNat hv (by omega)
  obtain ⟨-, hcompletes, -⟩ := readzeZeroExtendsAndAdvances (afterFetch s (.readze .pc z d)) .pc z d
  obtain ⟨t, hexec, hbits, hfill, hctr, -, hreg, -, hcell, hio, -⟩ := hcompletes (by rw [hpc]; exact hroom)
  rw [hpc] at hio
  refine ⟨t, (step_of_fetch hs (fetch_of_standsAtPc hv hstands)).trans hexec, ?pc, fun j hj => ?bits, hfill,
    fun q hq => hreg q hq, fun a => hcell a id, hio⟩
  case pc => rw [BitVec.ofNat_add, ← BitVec.add_assoc]; exact hctr
  case bits => rw [hbits j hj, hpc]; rfl

/-- Settles O32: a faulted machine is as the fetch of the instruction left it, and its fault is the fetch's own or comes
after it. -/
theorem faultsArePrecise : Obligations.FaultsArePrecise := by
  intro s f h
  rcases step_fault h with hfaulted | ⟨hs, -⟩
  · rw [advanceMachine_of_faulted hfaulted]
    refine ⟨hfaulted, rfl, rfl, fun _ _ => rfl, rfl, rfl, fun _ => rfl, fun hs => ?_⟩
    rw [hs] at hfaulted
    cases hfaulted
  · obtain ⟨pc, io, hstate, hio⟩ := fetch_state s
    have hpc : s.fetch.2.pc = pc := by rw [hstate]
    rw [advanceMachine_of_fault hs h, hstate]
    refine ⟨rfl, rfl, rfl, fun k hk => ?ctr, rfl, rfl, hio, fun _ => ⟨fun i t hfetch => ?fetched, fun herror => ?cut⟩⟩
    case ctr =>
      cases k with
      | pc => exact absurd rfl hk
      | sp | a0 | a1 => rfl
    case fetched =>
      obtain ⟨-, ht, -⟩ := fetch_ok hfetch
      show pc = _
      rw [← hpc, hfetch, ht]
      rfl
    case cut =>
      refine ⟨rfl, ?_⟩
      show f = .memFault (max pc.toNat s.cfg.memBits)
      rw [← hpc]
      exact fetchWith_error_eq_memFault herror

end Sys2Proof.Proofs
end

section
/-! SUPPORT. What an instruction can answer: a next state, the fault of a reserved code word, or the fault of its data
access (R98, R212). -/

namespace Sys2Proof.Machine

open Sys2Proof.Claims

/-- An instruction completes, is a reserved code word, or has a data access that is not inside memory. -/
theorem exec_completes_or_reserved_or_outside (s : State) (i : Instr) :
    (∃ t, exec i s = .next t) ∨ (∃ b, reservedBits i = some b) ∨
      ∃ addr n, dataAccess s i = some (addr, n) ∧ ¬ s.inMemory addr n := by
  cases ha : dataAccess s i with
  | none =>
    cases hr : reservedBits i with
    | none => exact .inl (exec_next_of_no_dataAccess ha hr)
    | some b => exact .inr (.inl ⟨b, rfl⟩)
  | some access =>
    obtain ⟨addr, n⟩ := access
    by_cases hin : s.inMemory addr n
    · exact .inl (exec_next_of_inMemory ha hin)
    · exact .inr (.inr ⟨addr, n, rfl, hin⟩)

/-- The faults of execution are those of R212: that of a reserved code word, and that of a data access outside memory. -/
theorem exec_fault_iff {s : State} {i : Instr} {f : Fault} :
    exec i s = .fault f ↔
      (∃ b, reservedBits i = some b ∧ f = .reservedOpcode b) ∨
      (∃ addr n, dataAccess s i = some (addr, n) ∧ ¬ s.inMemory addr n ∧ f = s.outOfMemory addr) := by
  constructor
  · intro h
    rcases exec_completes_or_reserved_or_outside s i with ⟨t, ht⟩ | ⟨b, hb⟩ | ⟨addr, n, ha, hout⟩
    · rw [ht] at h
      cases h
    · rw [exec_of_reservedBits hb] at h
      cases h
      exact .inl ⟨b, hb, rfl⟩
    · rw [exec_of_not_inMemory ha hout] at h
      cases h
      exact .inr ⟨addr, n, ha, hout, rfl⟩
  · rintro (⟨b, hb, rfl⟩ | ⟨addr, n, ha, hout, rfl⟩)
    · exact exec_of_reservedBits hb s
    · exact exec_of_not_inMemory ha hout

/-- Every instruction has a meaning: it completes or faults. -/
theorem exec_ne_refused (s : State) (i : Instr) (q : Refusal) : exec i s ≠ .refused q := by
  intro h
  rcases exec_completes_or_reserved_or_outside s i with ⟨t, ht⟩ | ⟨b, hb⟩ | ⟨addr, n, ha, hout⟩
  · rw [ht] at h
    cases h
  · rw [exec_of_reservedBits hb] at h
    cases h
  · rw [exec_of_not_inMemory ha hout] at h
    cases h

/-- A faulted machine answers its fault again (R211). -/
theorem step_of_faulted {s : State} {f : Fault} (h : s.status = .faulted f) : step s = .fault f := by
  simp only [step, h, raise]

end Sys2Proof.Machine
end

section
/-! The statements of faults (spec/60_exceptions.md): which faults execution raises, and that a fault is final. -/

namespace Sys2Proof.Proofs

open Sys2Proof.Machine

/-- Settles O27: an access that is not inside memory is one that ends past `MEMBITS`. -/
theorem executionFaultsExactlyAsListed : Obligations.ExecutionFaultsExactlyAsListed := by
  intro s i
  refine ⟨fun f => ?_, exec_ne_refused s i⟩
  simp only [← Nat.not_le]
  exact exec_fault_iff

/-- Settles O31: neither `step` nor `advanceMachine` goes on from a faulted status. -/
theorem faultedMachineHasNoStep : Obligations.FaultedMachineHasNoStep :=
  fun _ _ h => ⟨step_of_faulted h, advanceMachine_of_faulted h⟩

end Sys2Proof.Proofs
end

section
/-! SUPPORT. The launch state field by field (spec/70_reset_and_hazards.md R232), and what it is for a run to have ended
(R239). -/

namespace Sys2Proof.Machine

open Sys2Proof.Claims

variable (image : List Bool) (any : State)

/-! ## The launch state (R232) -/

/-- Launching sets `pc` and the fault status, and loads memory. -/
theorem launch_eq : ∃ m, State.launch image any = { any with pc := 0, status := .running, mem := m } :=
  loadBits_eq _ 0 image

@[simp] theorem launch_pc : (State.launch image any).pc = 0 := by
  obtain ⟨m, h⟩ := launch_eq image any; rw [h]

@[simp] theorem launch_status : (State.launch image any).status = .running := by
  obtain ⟨m, h⟩ := launch_eq image any; rw [h]

@[simp] theorem launch_regs : (State.launch image any).regs = any.regs := by
  obtain ⟨m, h⟩ := launch_eq image any; rw [h]

@[simp] theorem launch_flags : (State.launch image any).flags = any.flags := by
  obtain ⟨m, h⟩ := launch_eq image any; rw [h]

@[simp] theorem launch_cfg : (State.launch image any).cfg = any.cfg := by
  obtain ⟨m, h⟩ := launch_eq image any; rw [h]

@[simp] theorem launch_io : (State.launch image any).io = any.io := by
  obtain ⟨m, h⟩ := launch_eq image any; rw [h]

theorem launch_ctr_of_ne_pc {k : Ctr} (hk : k ≠ .pc) : (State.launch image any).ctr k = any.ctr k := by
  obtain ⟨m, h⟩ := launch_eq image any
  rw [h]
  cases k with
  | pc => exact absurd rfl hk
  | sp | a0 | a1 => rfl

variable {image any}

/-- An image that fits memory stands there bit for bit from address 0, and every bit past it is as it was. -/
theorem launch_cell (hv : any.cfg.Valid) (hwf : Memory.WF any.mem) (hfit : image.length ≤ any.cfg.memBits) (a : Nat) :
    (State.launch image any).cell a = if h : a < image.length then image[a] else any.cell a := by
  have hload := loadBits_read (s := { any with pc := 0, status := .running }) hwf 0 image (by simpa using hfit) hv.2 a
  simpa [State.launch, State.cell] using hload

/-- The instruction an image begins with stands at `pc` of the launch state. -/
theorem launch_standsAtPc {i : Instr} {tail : List Bool} (hv : any.cfg.Valid) (hwf : Memory.WF any.mem)
    (hi : i.wellFormed any.cfg.pushForm = true) (hfit : (encode i ++ tail).length ≤ any.cfg.memBits)
    (hd : any.cfg.touchesDevice 0 (encode i ++ tail).length = false) :
    StandsAtPc (State.launch (encode i ++ tail) any) i := by
  rw [List.length_append, touchesDevice_append, Bool.or_eq_false_iff] at hd
  have hroom : (encode i).length ≤ any.cfg.memBits := by
    rw [List.length_append] at hfit
    omega
  refine ⟨by simpa using hi, by simpa using hroom, by simpa using hd.1, ?_⟩
  refine List.ext_getElem (by simp) fun j _ hj => ?_
  have hcell := launch_cell hv hwf hfit j
  rw [dif_pos (by rw [List.length_append]; omega), List.getElem_append_left hj] at hcell
  simpa [State.cell] using hcell

/-! ## The end of a run (R239) -/

/-- A run has ended where a running machine fetches, from no device, a jump to the place it was fetched from. -/
theorem ended_iff {s : State} :
    s.ended = true ↔
      s.status = .running ∧ ∃ x t, s.fetch = (.ok (.jump x), t) ∧ t.pc + addrValue x = s.pc ∧ t.io = s.io := by
  unfold State.ended
  split
  next x t hs hfetch => simp [hs, hfetch]
  next hother =>
    refine ⟨fun h => absurd h Bool.false_ne_true, ?_⟩
    rintro ⟨hs, x, t, hfetch, -, -⟩
    exact (hother x t hs hfetch).elim

/-- The displacement of each self-jump takes back the length of its own encoding (R97, R239). -/
theorem selfJump_length_add_addrValue {x : Addr}
    (hx : x ∈ [Addr.a8 (-13), .a16 (-22), .a32 (-39), .a64 (-71)]) :
    BitVec.ofNat 64 (encode (.jump x)).length + addrValue x = 0 := by
  simp only [List.mem_cons, List.not_mem_nil, or_false] at hx
  rcases hx with rfl | rfl | rfl | rfl
  all_goals decide

end Sys2Proof.Machine
end

section
/-! The statements of reset, loading and the end of a run (spec/70_reset_and_hazards.md). -/

namespace Sys2Proof.Proofs

open Sys2Proof.Machine Sys2Proof.Claims

/-- Settles O36: the launch state field by field, its memory as loading leaves it. -/
theorem launchHoldsImage : Obligations.LaunchHoldsImage := by
  intro image any hv hwf hfit
  refine ⟨launch_pc .., launch_status .., fun j hj => ?_, fun j hj => ?_, launch_regs .., launch_flags ..,
    fun _ hk => launch_ctr_of_ne_pc image any hk, launch_cfg .., launch_io ..⟩
  · rw [launch_cell hv hwf hfit, dif_pos hj]
  · rw [launch_cell hv hwf hfit, dif_neg (Nat.not_lt.2 hj)]

/-- Settles O37: the image's first instruction stands at `pc` of a running machine, so the step is its meaning. -/
theorem launchRunsFirstInstruction : Obligations.LaunchRunsFirstInstruction := by
  intro i tail any hv hwf hi hfit hd
  have hstands := launch_standsAtPc hv hwf hi hfit hd
  exact step_of_fetch (launch_status ..) (fetch_of_standsAtPc (by simpa using hv) hstands)

/-- Settles O42: the fetch moves `pc` on by the length of the jump, and the displacement takes it back. -/
theorem selfJumpEndsRun : Obligations.SelfJumpEndsRun := by
  intro s x hv hs hx hstands
  refine ended_iff.2 ⟨hs, x, _, fetch_of_standsAtPc hv hstands, ?_, setCtr_io ..⟩
  calc (afterFetch s (.jump x)).pc + addrValue x
      = s.pc + (BitVec.ofNat 64 (encode (.jump x)).length + addrValue x) := BitVec.add_assoc ..
    _ = s.pc := by rw [selfJump_length_add_addrValue hx, add_zero]

/-- Settles O41: the fetch of the jump changed nothing but `pc`, and the jump puts `pc` back. -/
theorem endedRunStepsToItself : Obligations.EndedRunStepsToItself := by
  intro s h
  obtain ⟨hs, x, t, hfetch, htarget, hio⟩ := ended_iff.1 h
  obtain ⟨-, ht, -⟩ := fetch_ok hfetch
  have hback : t.setCtr .pc (t.pc + addrValue x) = s := by
    rw [htarget, ht, hio]
    rfl
  calc step s = .next (t.setCtr .pc (t.pc + addrValue x)) := step_of_fetch hs hfetch
    _ = .next s := by rw [hback]

end Sys2Proof.Proofs
end

section
/-! The example words of the spec (spec/95_test_vectors.md). -/

namespace Sys2Proof.Proofs

open Sys2Proof.Machine Sys2Proof.Claims

/-- A word that is the whole encoding of an instruction the machine has decodes to it, with no bit left. -/
theorem decode_eq_of_encode_eq {f : PushForm} {i : Instr} {l : List Bool} (hwf : i.wellFormed f = true)
    (h : encode i = l) : decode f l = .ok (i, []) := by
  simpa [h] using decode_encode hwf []

/-- Settles O54: each word is the encoding of its instruction, field by field, and decoding undoes the encoding. -/
theorem exampleWordsDecode : Obligations.ExampleWordsDecode := by
  refine ⟨?add2, ?leti, ?sub2i, ?jumpif, ?shift, ?readze, ?or2, ?reserved1111101⟩
  all_goals exact decode_eq_of_encode_eq rfl (by decide)

end Sys2Proof.Proofs
end
